-- ==== Sys2Proof/Word.lean ====
section
/-! DEFINITION. The word and byte types of the engine (00_scope.md R10, R14): a word is an unsigned 32-bit
number and all its arithmetic wraps, which is what `BitVec` arithmetic does. -/

namespace Sys2Proof

/-- "A *word* is an unsigned 32-bit integer" (R10). `+`, `-`, `*` wrap, `>>>` is logical, `<<<` truncates. -/
abbrev Word := BitVec 32

/-- One byte of the byte views of `DATA` and `KEY0..3` (R14, R38). -/
abbrev Byte := BitVec 8

end Sys2Proof
end

