-- ==== Sys2Proof/Config.lean ====
section
/-! DEFINITION. What one build of the engine fixes (00_scope.md R7) and the values the spec leaves open
(93_implementation_defined.md I5 to I9). Nothing here has a value a proof could use, beyond the bounds R7 states. -/

namespace Sys2Proof

/-- The hidden sequencing state the engine holds while busy (10_state.md R39): "the running `sum`, `e`, position
`p`, neighbours `y` and `z` and the remaining round count". -/
structure Sequencing where
  sum        : Word
  e          : BitVec 2
  p          : Nat
  y          : Word
  z          : Word
  roundsLeft : Nat
  deriving DecidableEq, Repr, Inhabited

/-- The parameters of one engine instance (R7): the capacity of the data buffer in words and the bus address of the
region. Fixed for the instance; State carries them because R7's "arguments of the model" must reach the step. -/
structure Params where
  wmax : Nat
  base : Nat
  deriving DecidableEq, Repr

/-- Size in bytes of the region `[BASE, BASE + 0x1000 + 4·WMAX)` (20_memory.md R51). -/
def regionSize (wmax : Nat) : Nat := 0x1000 + 4 * wmax

/-- "the region size rounded up to a power of two" (R7, the constraint on `BASE`). -/
def regionAlign (wmax : Nat) : Nat := 2 ^ (Nat.log2 (regionSize wmax - 1) + 1)

/-- OPEN (R7): how far `WMAX` lies above its least value 2, before the bound is applied. Log entry 1. -/
opaque Config.wmaxOffset : Nat

/-- `WMAX`, "natural, `2 <= WMAX <= 2^20`" (R7, R8). Log entry 1. -/
def Config.WMAX : Nat := 2 + Config.wmaxOffset % (2 ^ 20 - 1)

/-- OPEN (R7): which aligned slot of the bus address space holds the region. Log entry 2. -/
opaque Config.baseSlot : Nat

/-- `BASE`, "multiple of `0x1000` and of the region size rounded up to a power of two" (R7). Log entry 2. -/
def Config.BASE : Nat := Config.baseSlot * regionAlign Config.WMAX

/-- The parameters of the engine that reset starts. -/
def Config.params : Params := { wmax := Config.WMAX, base := Config.BASE }

/-- FREE VALUE (10_state.md R43, 93 I9): what byte `i` of `DATA` holds after the `epoch`-th reset, until it is
written. Log entry 5. -/
opaque Config.resetByte : Nat → Nat → Byte

/-- FREE VALUE (10_state.md R41, 93 I8): the `n`-th draw, answered to a read of a result register or of `DATA`
while the engine is busy; it may depend on the hidden sequencing state (R39). Log entry 6. -/
opaque Config.busyDraw : Sequencing → Nat → Word

/-- FREE VALUE (10_state.md R39, 00_scope.md R19): the hidden sequencing state, drawn anew whenever the engine
moves on. Log entry 7. -/
opaque Config.sequencing : Nat → Sequencing

end Sys2Proof
end

