-- ==== Sys2Proof/Syntax.lean ====
section
/-! DEFINITION. The commands of the engine, one constructor per row of spec/opcode_table.json, and the host-script
syntax of 30_encoding.md R79 and R80. -/

namespace Sys2Proof

/-- The commands (30_encoding.md R71, R72). A command carries no register, address or immediate (R77); `wl` is the
with-length flag `WL`, an operand of ENCODE and DECODE only (R73). -/
inductive Instr where
  /-- NOP (43_cipher.md R160). -/
  | nop
  /-- ENCRYPT (43_cipher.md R161). -/
  | encrypt
  /-- DECRYPT (43_cipher.md R168). -/
  | decrypt
  /-- KEYNORM (41_key_schedule.md R122). -/
  | keynorm
  /-- ENCODE (`wl = false`) and ENCODE.L (`wl = true`) (40_word_codec.md R100). -/
  | encode (wl : Bool)
  /-- DECODE (`wl = false`) and DECODE.L (`wl = true`) (40_word_codec.md R106). -/
  | decode (wl : Bool)
  /-- MIXF (42_mixing.md R140). -/
  | mixf
  /-- MIXR (42_mixing.md R145). -/
  | mixr
  deriving DecidableEq, Repr

/-- A location of the engine's region (10_state.md R23): the targets a host script names (R79), and the reserved
offsets, which have no name in a script. -/
inductive Loc where
  | cmd | status | irqEn | keyLen
  | key0 | key1 | key2 | key3
  | nkey0 | nkey1 | nkey2 | nkey3
  | len | wcount | cap
  | reserved
  | data (w : Nat)
  deriving DecidableEq, Repr

/-- One line of a host script: the forms of R79 and the pseudo-instructions of R80. -/
inductive ScriptLine where
  /-- `WR <target>, <value>` -/
  | wr (t : Loc) (v : Word)
  /-- `RD <target>` -/
  | rd (t : Loc)
  /-- `CMD <mnemonic>` -/
  | cmd (i : Instr)
  /-- `WAIT` -/
  | wait
  /-- `RUN <mnemonic>` -/
  | run (i : Instr)
  /-- `ACK` -/
  | ack
  /-- `WRB <w>, <bytes>` -/
  | wrb (w : Nat) (bytes : List Byte)
  /-- `WRK <bytes>` -/
  | wrk (bytes : List Byte)
  /-- `EXPECT <target>, <value>` -/
  | expect (t : Loc) (v : Word)
  deriving DecidableEq, Repr

end Sys2Proof
end

