-- ==== Sys2Proof/WellFormed.lean ====
section
/-! DEFINITION. The checks the spec puts on command words (30_encoding.md R75), on the parameters (00_scope.md R7)
and on host-script lines (R79, R80). -/

namespace Sys2Proof

/-- Legality of a latched command word, R75's formula:
`c[31:5] = 0 and c[3:0] <= 0x7 and (c[4] = 0 or c[3:0] in {0x4, 0x5})`. -/
def legalWord (c : Word) : Bool :=
  c.extractLsb' 5 27 == 0
    && decide ((c.extractLsb' 0 4).toNat ≤ 7)
    && (!c.getLsbD 4 || c.extractLsb' 0 4 == 4 || c.extractLsb' 0 4 == 5)

/-- Every term of `Instr` is a legal command: the syntax has a with-length flag only where R73 allows one. -/
def Instr.wf : Instr → Bool
  | .nop | .encrypt | .decrypt | .keynorm | .mixf | .mixr => true
  | .encode _ | .decode _ => true

/-- The constraints of R7 on `WMAX` and `BASE`. -/
def Params.wf (p : Params) : Bool :=
  decide (2 ≤ p.wmax) && decide (p.wmax ≤ 2 ^ 20)
    && p.base % 0x1000 == 0 && p.base % regionAlign p.wmax == 0

/-- A target a script may name on an engine of `wmax` words (R79): a register name, or `DATA[w]` inside the buffer. -/
def Loc.nameable (wmax : Nat) : Loc → Bool
  | .reserved => false
  | .data w => decide (w < wmax)
  | _ => true

/-- A script line that names existing locations only and whose byte strings fit (R79, R80). -/
def ScriptLine.wf (wmax : Nat) : ScriptLine → Bool
  | .wr t _ => t.nameable wmax
  | .rd t => t.nameable wmax
  | .expect t _ => t.nameable wmax
  | .cmd i => i.wf
  | .run i => i.wf
  | .wait => true
  | .ack => true
  | .wrb w bytes => decide (4 * w + bytes.length ≤ 4 * wmax)
  | .wrk bytes => decide (bytes.length < 2 ^ 32)

end Sys2Proof
end

