-- ==== Sys2Proof/Decode.lean ====
section
/-! DEFINITION. Decoding and encoding of command words (30_encoding.md R70 to R78). Decoding is total: a word that
is no command is rejected under the name of the first part of R75 it fails. -/

namespace Sys2Proof

/-- Why a word is no command (R75). The engine reports all three as ILLEGAL_CMD. -/
inductive IllegalWord where
  /-- A bit of 31:5 is set (R74). -/
  | reservedBits
  /-- `OP` is 0x8 to 0xF (R71). -/
  | reservedOp
  /-- `WL` is set with an `OP` other than 4 or 5 (R73). -/
  | withLengthFlag
  deriving DecidableEq, Repr

/-- The field `OP`, bits 3:0 (R70). -/
def opField (c : Word) : BitVec 4 := c.extractLsb' 0 4

/-- The field `WL`, bit 4 (R70). -/
def wlField (c : Word) : Bool := c.getLsbD 4

/-- The reserved field, bits 31:5 (R70, R74). -/
def reservedField (c : Word) : BitVec 27 := c.extractLsb' 5 27

/-- The opcode map (R71) on the two fields that are left once the reserved bits are known to be zero. -/
def decodeFields (op : Nat) (wl : Bool) : Except IllegalWord Instr :=
  match op, wl with
  | 0, false => .ok .nop
  | 1, false => .ok .encrypt
  | 2, false => .ok .decrypt
  | 3, false => .ok .keynorm
  | 4, wl => .ok (.encode wl)
  | 5, wl => .ok (.decode wl)
  | 6, false => .ok .mixf
  | 7, false => .ok .mixr
  | n, _ => if n ≤ 7 then .error .withLengthFlag else .error .reservedOp

/-- The command a word stands for (R72), or why it stands for none (R75). -/
def decode (c : Word) : Except IllegalWord Instr :=
  if reservedField c = 0 then decodeFields (opField c).toNat (wlField c) else .error .reservedBits

/-- The value of `OP` for a command (R71). -/
def opOf : Instr → BitVec 4
  | .nop => 0x0
  | .encrypt => 0x1
  | .decrypt => 0x2
  | .keynorm => 0x3
  | .encode _ => 0x4
  | .decode _ => 0x5
  | .mixf => 0x6
  | .mixr => 0x7

/-- The value of `WL` for a command (R73). -/
def wlOf : Instr → Bool
  | .encode wl => wl
  | .decode wl => wl
  | .nop | .encrypt | .decrypt | .keynorm | .mixf | .mixr => false

/-- The command word of a command: bits 31:5 zero, then `WL`, then `OP` (R70, R72). -/
def encode (i : Instr) : Word := (0#27 ++ BitVec.ofBool (wlOf i)) ++ opOf i

/-- The command the decoder reads from a table row's bits. A command is one 32-bit word written to `CMD` as a whole
(R70, R78), so the row's bit numbers are the word's bit numbers. -/
def decodeTableWord (nbits w : Nat) : Option Instr :=
  let bits := w % 2 ^ nbits
  if bits < 2 ^ 32 then (decode (BitVec.ofNat 32 bits)).toOption else none

end Sys2Proof
end

