-- ==== Sys2Proof/Machine/Bytes.lean ====
section
/-! DEFINITION. Byte order (20_memory.md R55): "All data is little-endian and this cannot be switched". Every
conversion between words and bytes of the model is one of these. -/

namespace Sys2Proof.Machine

/-- `byte(w, j) = w[8j+7 : 8j]` (00_scope.md R14). -/
def byteOf (w : Word) (j : Nat) : Byte := w.extractLsb' (8 * j) 8

/-- `b0 | b1 << 8 | b2 << 16 | b3 << 24` (10_state.md R38). -/
def wordOf (b0 b1 b2 b3 : Byte) : Word := b3 ++ b2 ++ b1 ++ b0

/-- The words that hold a byte string, the last one padded with zero bytes (20 R55, 40 R105). -/
def packWords : List Byte → List Word
  | [] => []
  | [a] => [wordOf a 0 0 0]
  | [a, b] => [wordOf a b 0 0]
  | [a, b, c] => [wordOf a b c 0]
  | a :: b :: c :: d :: rest => wordOf a b c d :: packWords rest

/-- The four bytes of a word, in index order. -/
def wordBytes (w : Word) : List Byte := [byteOf w 0, byteOf w 1, byteOf w 2, byteOf w 3]

/-- The bytes of a word list, in index order (40 R106: "packs each word as 4 little-endian bytes and concatenates"). -/
def unpackWords (ws : List Word) : List Byte := ws.flatMap wordBytes

/-- `ceil4(L) = (L + 3) div 4`, the number of words that hold `L` bytes (00_scope.md R11). -/
def ceil4 (l : Nat) : Nat := (l + 3) / 4

end Sys2Proof.Machine
end

