-- ==== Sys2Proof/Machine/State.lean ====
section
/-! DEFINITION. The state of one engine and of what drives it, as plain data (10_state.md R20 to R45). The fields
from `params` to `latch` are the spec's; the last six are the model's own and each names its log entry. -/

namespace Sys2Proof.Machine

/-- The result codes of 60_exceptions.md R180. Code 7 is "never written", so it has no constructor. -/
inductive ResultCode where
  | ok | emptyKey | malformedLength | illegalCmd | capacity | shortBlock | ctAlign
  deriving DecidableEq, Repr

/-- Four key words: `KEY0..3` (R32) or `NKEY0..3` (R33). -/
structure Key4 where
  w0 : Word
  w1 : Word
  w2 : Word
  w3 : Word
  deriving DecidableEq, Repr

/-- The bytes of `DATA` that have been written since the last reset, keyed by the byte index of the byte view (R38);
canonical: indices strictly rising. -/
abbrev Memory := List Host.Cell

/-- The data word buffer (R38). A byte that `cells` does not list still holds its reset draw
`Config.resetByte epoch i` (R43, R210; log entry 5). -/
structure Data where
  cells : Memory
  epoch : Nat
  deriving DecidableEq, Repr

/-- The operands a command reads: the snapshot that acceptance latches (R39, 60 R184, 70 R220). -/
structure Operands where
  len    : Word
  wcount : Word
  keyLen : Word
  key    : Key4
  nkey   : Key4
  data   : Data
  deriving DecidableEq, Repr

/-- The hidden command latch (R39): command word, operand snapshot, and the sequencing state held while busy. -/
structure Latch where
  word : Word
  ops  : Operands
  seq  : Sequencing
  deriving DecidableEq, Repr

/-- What the host still has to do, in bus order (20_memory.md R62, R64). Only 32-bit accesses exist (R53; 93 I13:
"no such access exists in the model"). Log entries 10, 12, 14. -/
inductive HostOp where
  /-- `MemRead(addr, 4)` (00_scope.md R14). -/
  | read (addr : Nat)
  /-- `MemWrite(addr, 4, v)` (R14). -/
  | write (addr : Nat) (v : Word)
  /-- The `WAIT` loop: read `STATUS` until `BUSY` reads 0 (30_encoding.md R80). -/
  | wait
  /-- `EXPECT`: a read and a check (R80). -/
  | expect (addr : Nat) (v : Word)
  deriving DecidableEq, Repr

/-- Which agent moves next (00_scope.md R17). Log entry 4. -/
inductive Turn where
  /-- The next host operation reaches the engine. -/
  | host
  /-- The engine works and does not complete (R7 `LAT`). -/
  | work
  /-- The engine sequencer's completion step (60 R185), if a command is in flight. -/
  | complete
  /-- `rst` is high at a clock edge (70 R210). -/
  | reset
  deriving DecidableEq, Repr

/-- The answer to one host access (20_memory.md R50, R52, R54). -/
inductive Response where
  /-- OKAY to a read, with the value. -/
  | value (v : Word)
  /-- OKAY to a write. -/
  | okay
  /-- ERROR to a misaligned access; a read returns `0x00000000` (R54). -/
  | error
  /-- The address is outside the region: the access does not reach the engine (R51). Log entry 11. -/
  | elsewhere
  deriving DecidableEq, Repr

/-- The spec gives the engine no condition that stops it: errors are result codes (60 R180, R191), a misaligned
access is a bus response (20 R54). So no meaning and no step faults. Log entry 14. -/
inductive Fault where
  deriving DecidableEq, Repr

/-- Why a step has no meaning. -/
inductive Refusal where
  /-- Raised by `exec` for an instruction that has no meaning yet: safe. No arm raises it. -/
  | notModelled (mnemonic : String)
  deriving DecidableEq, Repr

/-- The machine. `STATUS.BUSY` is `latch.isSome` (R26; log entry 8), `irq` is `ie && done` (R44; log entry 16),
`CAP` is `params.wmax` (R36). -/
structure State where
  /-- `WMAX` and `BASE` (00_scope.md R7). -/
  params : Params
  /-- `KEY_LEN` (R31). -/
  keyLen : Word
  /-- `KEY0..3` (R32). -/
  key    : Key4
  /-- `NKEY0..3` (R33). -/
  nkey   : Key4
  /-- `LEN` (R34). -/
  len    : Word
  /-- `WCOUNT` (R35). -/
  wcount : Word
  /-- `DATA[0..WMAX-1]` (R38). -/
  data   : Data
  /-- `STATUS.DONE` (R27). -/
  done   : Bool
  /-- `STATUS.ERR` (R28). -/
  err    : ResultCode
  /-- `STATUS.WERR` (R29). -/
  werr   : Bool
  /-- `IRQ_EN.IE` (R30). -/
  ie     : Bool
  /-- The command latch (R39); `none` is "empty" (R43). -/
  latch  : Option Latch
  /-- The model's: how many free values have been drawn (log entry 6). -/
  draws  : Nat
  /-- The model's: host operations still to come (log entry 10). -/
  host   : List HostOp
  /-- The model's: which agent moves next (log entry 4). -/
  turns  : List Turn
  /-- The model's: the answers so far, newest first (30_encoding.md R79). -/
  trace  : List Response
  /-- The model's: an `EXPECT` line has failed (R80; log entry 12). -/
  scriptFailed : Bool
  deriving DecidableEq, Repr

/-- The zero key words of reset (R43). -/
def Key4.zero : Key4 := { w0 := 0, w1 := 0, w2 := 0, w3 := 0 }

/-- The state after reset (R43, 70 R211). The model's own fields start empty (DESIGN CHOICE, log entries 4, 5, 6,
10, 12). -/
def State.reset : State where
  params := Config.params
  keyLen := 0
  key := Key4.zero
  nkey := Key4.zero
  len := 0
  wcount := 0
  data := { cells := [], epoch := 0 }
  done := false
  err := .ok
  werr := false
  ie := false
  latch := none
  draws := 0
  host := []
  turns := []
  trace := []
  scriptFailed := false

end Sys2Proof.Machine
end

