-- ==== Sys2Proof/Machine/Flags.lean ====
section
/-! DEFINITION. The status bits and the interrupt output (10_state.md R25 to R30, R44; 60_exceptions.md R180). There
are no condition codes (R45): a command writes BUSY, DONE and ERR only, through `State.complete`. -/

namespace Sys2Proof.Machine

/-- The number of a result code (60 R180). -/
def ResultCode.bits : ResultCode → BitVec 3
  | .ok => 0
  | .emptyKey => 1
  | .malformedLength => 2
  | .illegalCmd => 3
  | .capacity => 4
  | .shortBlock => 5
  | .ctAlign => 6

/-- `STATUS.BUSY`: a command has been accepted and not completed (R26). -/
def State.busy (s : State) : Bool := s.latch.isSome

/-- The value a read of `STATUS` answers (R25): BUSY in bit 0, DONE in bit 1, ERR in bits 6:4, WERR in bit 8, every
other bit 0. -/
def State.statusWord (s : State) : Word :=
  0#23 ++ BitVec.ofBool s.werr ++ 0#1 ++ s.err.bits ++ 0#2 ++ BitVec.ofBool s.done ++ BitVec.ofBool s.busy

/-- The value a read of `IRQ_EN` answers (R30). -/
def State.irqEnWord (s : State) : Word := 0#31 ++ BitVec.ofBool s.ie

/-- The interrupt output (R44): "equal to `IRQ_EN.IE AND STATUS.DONE` at all times". -/
def State.irq (s : State) : Bool := s.ie && s.done

/-- A host write to `STATUS` (R25): write 1 to clear DONE (bit 1) and WERR (bit 8), every other bit ignored. Writing
1 to DONE is the host's acknowledge, the only return from a completion (60 R192). -/
def State.writeStatus (s : State) (v : Word) : State :=
  { s with done := s.done && !v.getLsbD 1, werr := s.werr && !v.getLsbD 8 }

/-- A host write to `IRQ_EN` (R30): bit 0 only. -/
def State.writeIrqEn (s : State) (v : Word) : State := { s with ie := v.getLsbD 0 }

end Sys2Proof.Machine
end

