-- ==== Sys2Proof/Machine/Ops.lean ====
section
/-! DEFINITION. The shared operations: memory, the operand snapshot, acceptance, completion (what a processor's trap
would do is done by the completion step, 60_exceptions.md R191) and reset. Every meaning is written over these. -/

namespace Sys2Proof.Machine

/-! ### The byte store behind `DATA` -/

/-- The byte listed at an index, if any. -/
def Memory.find : Memory → Nat → Option Byte
  | [], _ => none
  | (a, b) :: m, i => if a = i then some b else Memory.find m i

/-- List a byte at an index, keeping the indices strictly rising and one entry an index. -/
def Memory.write : Memory → Nat → Byte → Memory
  | [], i, v => [(i, v)]
  | (a, b) :: m, i, v =>
    if i < a then (i, v) :: (a, b) :: m
    else if i = a then (i, v) :: m
    else (a, b) :: Memory.write m i v

/-- The indices rise strictly, from `lo` on. -/
def Memory.risesFrom (lo : Nat) : Memory → Bool
  | [] => true
  | (a, _) :: m => decide (lo ≤ a) && Memory.risesFrom (a + 1) m

/-- The canonical form: indices strictly rising. What an unlisted index reads as is a draw that no listed byte is
known to equal, so listed means written since reset (log entry 5). -/
def Memory.wf (m : Memory) : Bool := Memory.risesFrom 0 m

/-- Byte `i` of the byte view, `B(i)` (10_state.md R38); an unwritten byte holds its reset draw (R43). -/
def Data.byte (d : Data) (i : Nat) : Byte := (Memory.find d.cells i).getD (Config.resetByte d.epoch i)

/-- `DATA[w]` (R38). -/
def Data.word (d : Data) (w : Nat) : Word :=
  wordOf (d.byte (4 * w)) (d.byte (4 * w + 1)) (d.byte (4 * w + 2)) (d.byte (4 * w + 3))

/-- The bytes `B(0..n-1)`. -/
def Data.bytes (d : Data) (n : Nat) : List Byte := (List.range n).map d.byte

/-- The words `DATA[0..n-1]`. -/
def Data.block (d : Data) (n : Nat) : List Word := (List.range n).map d.word

/-- Write one byte of the byte view. -/
def Data.writeByte (d : Data) (c : Host.Cell) : Data := { d with cells := Memory.write d.cells c.1 c.2 }

/-- Write bytes in list order (00_scope.md R13: "in loop order"). -/
def Data.writeAll (d : Data) (cs : List Host.Cell) : Data := cs.foldl Data.writeByte d

/-- The byte writes of `DATA[w] <- v` (R38). -/
def wordCells (w : Nat) (v : Word) : List Host.Cell :=
  [(4 * w, byteOf v 0), (4 * w + 1, byteOf v 1), (4 * w + 2, byteOf v 2), (4 * w + 3, byteOf v 3)]

/-- The byte writes of `DATA[w..] <- vs`. -/
def blockCells : Nat → List Word → List Host.Cell
  | _, [] => []
  | w, v :: vs => wordCells w v ++ blockCells (w + 1) vs

/-- The data buffer is canonical and lies inside the window of `wmax` words (R38). -/
def Data.wf (wmax : Nat) (d : Data) : Bool :=
  Memory.wf d.cells && d.cells.all fun c => decide (c.1 < 4 * wmax)

/-! ### The life of a command -/

/-- The operands as the registers hold them now (60 R184's snapshot). -/
def State.liveOperands (s : State) : Operands where
  len := s.len
  wcount := s.wcount
  keyLen := s.keyLen
  key := s.key
  nkey := s.nkey
  data := s.data

/-- The operands a completion step works on: the latched snapshot (60 R185, 70 R220). Without a command in flight,
which no step meets, the registers themselves (log entry 9). -/
def State.operands (s : State) : Operands :=
  match s.latch with
  | some l => l.ops
  | none => s.liveOperands

/-- Acceptance of a command word (60 R184): the latch takes the word and the snapshot, BUSY rises with it, DONE falls;
ERR and WERR keep their values. "Acceptance does not check legality; every word is accepted." -/
def State.accept (s : State) (c : Word) : State :=
  { s with
    latch := some { word := c, ops := s.liveOperands, seq := Config.sequencing s.draws }
    done := false
    draws := s.draws + 1 }

/-- What a command's rule gives (60 R185: "(effects, code) <- rule_of(latch.c)(latch)"): the code and the writes of
10_state.md R40. `none` and the empty list write nothing. -/
structure Result where
  code   : ResultCode
  nkey   : Option Key4 := none
  writes : List Host.Cell := []
  wcount : Option Word := none
  len    : Option Word := none
  deriving DecidableEq, Repr

/-- `raise E` of an error found before any write (60 R182: "writes only `STATUS`"). -/
def Result.raise (c : ResultCode) : Result := { code := c }

/-- The completion step (60 R185), `complete(OK)` and `raise E` alike (00_scope.md R15): apply the effects, then
`ERR <- code`, `BUSY <- 0`, `DONE <- 1`, in one step. -/
def State.complete (s : State) (r : Result) : State :=
  { s with
    nkey := r.nkey.getD s.nkey
    data := s.data.writeAll r.writes
    wcount := r.wcount.getD s.wcount
    len := r.len.getD s.len
    err := r.code
    latch := none
    done := true }

/-- One reset step (70 R210): every register at its reset value, the latch empty, `DATA` drawn anew. A command in
flight ends with no completion step. What lies outside the engine (the host's script, its answers, the schedule) is
kept (log entry 13). -/
def State.resetEngine (s : State) : State :=
  { State.reset with
    params := s.params
    data := { cells := [], epoch := s.data.epoch + 1 }
    draws := s.draws
    host := s.host
    turns := s.turns
    trace := s.trace
    scriptFailed := s.scriptFailed }

/-- The engine goes on working without completing (00_scope.md R7 `LAT`, 70 R222): only the hidden sequencing state
moves, to a fresh draw (10_state.md R39; log entry 7). An idle engine does nothing. -/
def State.work (s : State) : State :=
  match s.latch with
  | some l => { s with latch := some { l with seq := Config.sequencing s.draws }, draws := s.draws + 1 }
  | none => s

end Sys2Proof.Machine
end

