-- ==== Sys2Proof/Machine/Operands.lean ====
section
/-! DEFINITION. The operand forms the commands share: key bytes, pad bytes, the length word and its check, a block.
A command word names no register or address (30_encoding.md R77): every operand comes from the snapshot. -/

namespace Sys2Proof.Machine

/-- Word `i` of four key words (`KEY(i)` or `NKEY[i]`). -/
def Key4.get (k : Key4) : Nat → Word
  | 0 => k.w0
  | 1 => k.w1
  | 2 => k.w2
  | _ => k.w3

/-- `KEYB(i) = byte(x[KEY(i div 4)], i mod 4)` (10_state.md R32). -/
def Key4.byte (k : Key4) (i : Nat) : Byte := byteOf (k.get (i / 4)) (i % 4)

/-- `keybyte(j) = (j < K) ? KEYB(j) : 0x00` (41_key_schedule.md R121). -/
def keyByte (keyLen : Nat) (k : Key4) (j : Nat) : Byte := if j < keyLen then k.byte j else 0

/-- `k[i]` of R121: the little-endian packing of key bytes `4i..4i+3`. -/
def keyWord (keyLen : Nat) (k : Key4) (i : Nat) : Word :=
  wordOf (keyByte keyLen k (4 * i)) (keyByte keyLen k (4 * i + 1)) (keyByte keyLen k (4 * i + 2))
    (keyByte keyLen k (4 * i + 3))

/-- The normalised key `k[0..3]` of the snapshot (R121). -/
def normalizedKey (o : Operands) : Key4 where
  w0 := keyWord o.keyLen.toNat o.key 0
  w1 := keyWord o.keyLen.toNat o.key 1
  w2 := keyWord o.keyLen.toNat o.key 2
  w3 := keyWord o.keyLen.toNat o.key 3

/-- The writes `for i in L .. 4*ceil4(L) - 1: B(i) <- 0x00` (40_word_codec.md R100, R101). -/
def padCells (l : Nat) : List Host.Cell := (List.range (4 * ceil4 l - l)).map fun j => (l + j, 0)

/-- The writes `DATA[N0] <- L` (40 R103). -/
def lengthCells (l : Nat) : List Host.Cell := wordCells (ceil4 l) (BitVec.ofNat 32 l)

/-- The scrub `DATA[0..N-1] <- 0` (40 R108). -/
def scrubCells (n : Nat) : List Host.Cell := blockCells 0 (List.replicate n 0)

/-- The length check of 40 R107: with `nb = 4·(N−1)`, valid iff `nb − 3 ≤ m ≤ nb`, on naturals. -/
def lengthValid (n m : Nat) : Bool :=
  let nb := 4 * (n - 1)
  !(decide (m + 3 < nb) || decide (m > nb))

/-- `raise MALFORMED_LENGTH` with the scrub of 40 R108; `nkey` is DECRYPT's write, which stands (43 R172). -/
def malformedLength (n : Nat) (nkey : Option Key4) : Result where
  code := .malformedLength
  nkey := nkey
  writes := scrubCells n
  wcount := some 0
  len := some 0

end Sys2Proof.Machine
end

