-- ==== Sys2Proof/Machine/Mixing.lean ====
section
/-! DEFINITION. The mixing engine (42_mixing.md): MX, the two transforms, MIXF and MIXR. A block is the list of its
`N` words. The transforms are written in the form R136 ("Equivalently, each round is …") and R138 give; the loops
that carry `z` and `y`, which the spec writes out, follow, and Obligations state that the two agree. -/

namespace Sys2Proof.Machine

/-- "`DELTA = 0x9E3779B9` (a word)" (R130). -/
def delta : Word := 0x9E3779B9

/-- "`rounds(N) = 6 + 52 div N`" (R131). -/
def rounds (n : Nat) : Nat := 6 + 52 / n

/-- "`e = (sum >> 2) AND 3`" (R134). -/
def selector (sum : Word) : Nat := ((sum >>> 2) &&& 3).toNat

/-- The index of the key word, "`(p AND 3) XOR e`" (R133). -/
def keyIndex (p e : Nat) : Nat := (p &&& 3) ^^^ e

/-- MX (R132). -/
def mx (k : Key4) (z y sum : Word) (p e : Nat) : Word :=
  (((z >>> 5) ^^^ (y <<< 2)) + ((y >>> 3) ^^^ (z <<< 4)))
    ^^^ ((sum ^^^ y) + (k.get (keyIndex p e) ^^^ z))

/-- Word `p` of a block. -/
def wordAt (v : List Word) (p : Nat) : Word := v.getD p 0

/-- The MX value of position `p`: predecessor `v[(p-1) mod N]`, successor `v[(p+1) mod N]` (R136). -/
def mxAt (k : Key4) (sum : Word) (v : List Word) (p : Nat) : Word :=
  mx k (wordAt v ((p + v.length - 1) % v.length)) (wordAt v ((p + 1) % v.length)) sum p (selector sum)

/-- One forward step (R136): `v[p] <- v[p] + MX(…)`. -/
def fwdStep (k : Key4) (sum : Word) (v : List Word) (p : Nat) : List Word :=
  v.set p (wordAt v p + mxAt k sum v p)

/-- One reverse step (R138): `v[p] <- v[p] - MX(…)`. -/
def revStep (k : Key4) (sum : Word) (v : List Word) (p : Nat) : List Word :=
  v.set p (wordAt v p - mxAt k sum v p)

/-- A forward round: the steps at `p = 0, 1, …, n` in that order (R136, R147). -/
def fwdRound (k : Key4) (v : List Word) (sum : Word) : List Word :=
  (List.range v.length).foldl (fwdStep k sum) v

/-- A reverse round: the steps at `p = n, n−1, …, 0` in that order (R138). -/
def revRound (k : Key4) (v : List Word) (sum : Word) : List Word :=
  (List.range v.length).reverse.foldl (revStep k sum) v

/-- The round sums `s_r = r · DELTA mod 2^32` for `r = 1 … count` (R135). -/
def roundSums (count : Nat) : List Word := (List.range count).map fun r => BitVec.ofNat 32 (r + 1) * delta

/-- `xxtea_fwd(v, k)` (R136). -/
def xxteaFwd (k : Key4) (v : List Word) : List Word :=
  (roundSums (rounds v.length)).foldl (fwdRound k) v

/-- `xxtea_rev(v, k)` (R138, R139): the same sums in the order `r = rounds, …, 1` (R135). -/
def xxteaRev (k : Key4) (v : List Word) : List Word :=
  (roundSums (rounds v.length)).reverse.foldl (revRound k) v

/-! ### The loops as R136 and R139 write them, carrying `z` and `y` -/

/-- The inner loop of R136: `for p in 0 .. n-1`, carrying `z`. -/
def fwdLoopInner (k : Key4) (sum : Word) (n : Nat) (v : List Word) (z : Word) : List Word × Word :=
  (List.range n).foldl
    (fun (vz : List Word × Word) p =>
      let x := wordAt vz.1 p + mx k vz.2 (wordAt vz.1 (p + 1)) sum p (selector sum)
      (vz.1.set p x, x))
    (v, z)

/-- One iteration of R136's outer loop: add DELTA, the inner loop, then the final step with `p = n` (R137). -/
def fwdLoopRound (k : Key4) (n : Nat) (c : Word × List Word × Word) : Word × List Word × Word :=
  let sum := c.1 + delta
  let vz := fwdLoopInner k sum n c.2.1 c.2.2
  let x := wordAt vz.1 n + mx k vz.2 (wordAt vz.1 0) sum n (selector sum)
  (sum, vz.1.set n x, x)

/-- R136's pseudocode: `sum <- 0`, `z <- v[n]`, `repeat rounds times`. -/
def fwdLoop (k : Key4) (v : List Word) : List Word :=
  let n := v.length - 1
  (Nat.repeat (fwdLoopRound k n) (rounds v.length) (0, v, wordAt v n)).2.1

/-- The inner loop of R139: `for p in n downto 1`, carrying `y`. -/
def revLoopInner (k : Key4) (sum : Word) (n : Nat) (v : List Word) (y : Word) : List Word × Word :=
  (List.range n).reverse.foldl
    (fun (vy : List Word × Word) j =>
      let x := wordAt vy.1 (j + 1) - mx k (wordAt vy.1 j) vy.2 sum (j + 1) (selector sum)
      (vy.1.set (j + 1) x, x))
    (v, y)

/-- One iteration of R139's outer loop: the inner loop, the final step with `p = 0` (R137), then `sum <- sum - DELTA`. -/
def revLoopRound (k : Key4) (n : Nat) (c : Word × List Word × Word) : Word × List Word × Word :=
  let sum := c.1
  let vy := revLoopInner k sum n c.2.1 c.2.2
  let x := wordAt vy.1 0 - mx k (wordAt vy.1 n) vy.2 sum 0 (selector sum)
  (sum - delta, vy.1.set 0 x, x)

/-- R139's `while sum != 0`, cut off after `fuel` iterations: how many ran, and what they left. -/
def revWhile (k : Key4) (n : Nat) : Nat → Nat × Word × List Word × Word → Nat × Word × List Word × Word
  | 0, c => c
  | fuel + 1, c => if c.2.1 = 0 then c else revWhile k n fuel (c.1 + 1, revLoopRound k n c.2)

/-- R139's pseudocode: `sum <- rounds * DELTA`, `y <- v[0]`, `while sum != 0`, with the count of iterations. -/
def revLoop (k : Key4) (fuel : Nat) (v : List Word) : Nat × List Word :=
  let c := revWhile k (v.length - 1) fuel (0, BitVec.ofNat 32 (rounds v.length) * delta, v, wordAt v 0)
  (c.1, c.2.2.1)

/-! ### The commands -/

/-- What MIXF and MIXR share (R140, R145): the two checks, then the transform on `DATA[0..N-1]`. -/
def mixRule (transform : Key4 → List Word → List Word) (wmax : Nat) (o : Operands) : Result :=
  let n := o.wcount.toNat
  if n > wmax then Result.raise .capacity
  else if n < 2 then Result.raise .shortBlock
  else { code := .ok, writes := blockCells 0 (transform o.nkey (o.data.block n)) }

/-- MIXF (R140). -/
def execMixf (s : State) : Host.Outcome State Fault Refusal :=
  .next (s.complete (mixRule xxteaFwd s.params.wmax s.operands))

/-- MIXR (R145). -/
def execMixr (s : State) : Host.Outcome State Fault Refusal :=
  .next (s.complete (mixRule xxteaRev s.params.wmax s.operands))

end Sys2Proof.Machine
end

