-- ==== Sys2Proof/Machine/Cipher.lean ====
section
/-! DEFINITION. NOP, ENCRYPT, DECRYPT (43_cipher.md), and the completion of an illegal word (30_encoding.md R75). -/

namespace Sys2Proof.Machine

/-- The rule of NOP (R160): `complete(OK)`. -/
def nopRule : Result := { code := .ok }

/-- The rule of an illegal command word (30 R75): code 3 "and no other effect". -/
def illegalRule : Result := Result.raise .illegalCmd

/-- The empty fast path of ENCRYPT and DECRYPT (R163, R169): `WCOUNT <- 0`, and `LEN` stays 0. -/
def emptyResult : Result := { code := .ok, wcount := some 0 }

/-- The block ENCRYPT mixes: `wc_encode(plaintext, withLength = true)` made in place (R161). -/
def encodedBlock (o : Operands) : List Word :=
  let l := o.len.toNat
  (o.data.writeAll (padCells l ++ lengthCells l)).block (ceil4 l + 1)

/-- The rule of ENCRYPT (R161), line by line; the checks in the order of R165. -/
def encryptRule (wmax : Nat) (o : Operands) : Result :=
  let l := o.len.toNat
  let n := ceil4 l + 1
  if l = 0 then emptyResult
  else if o.keyLen = 0 then Result.raise .emptyKey
  else if n > wmax then Result.raise .capacity
  else
    { code := .ok
      nkey := some (normalizedKey o)
      writes := blockCells 0 (xxteaFwd (normalizedKey o) (encodedBlock o))
      wcount := some (BitVec.ofNat 32 n)
      len := some (BitVec.ofNat 32 (4 * n)) }

/-- The rule of DECRYPT (R168), line by line; the checks in the order of R165. -/
def decryptRule (wmax : Nat) (o : Operands) : Result :=
  let l := o.len.toNat
  let n := l / 4
  if l = 0 then emptyResult
  else if o.keyLen = 0 then Result.raise .emptyKey
  else if l % 4 ≠ 0 then Result.raise .ctAlign
  else if n > wmax then Result.raise .capacity
  else if n < 2 then Result.raise .shortBlock
  else
    let nk := normalizedKey o
    let v := xxteaRev nk (o.data.block n)
    let m := wordAt v (n - 1)
    if lengthValid n m.toNat then
      { code := .ok
        nkey := some nk
        writes := blockCells 0 v
        wcount := some (BitVec.ofNat 32 n)
        len := some m }
    else malformedLength n (some nk)

/-- NOP (R160). -/
def execNop (s : State) : Host.Outcome State Fault Refusal := .next (s.complete nopRule)

/-- ENCRYPT (R161). -/
def execEncrypt (s : State) : Host.Outcome State Fault Refusal :=
  .next (s.complete (encryptRule s.params.wmax s.operands))

/-- DECRYPT (R168). -/
def execDecrypt (s : State) : Host.Outcome State Fault Refusal :=
  .next (s.complete (decryptRule s.params.wmax s.operands))

end Sys2Proof.Machine
end

