-- ==== Sys2Proof/Machine/KeySchedule.lean ====
section
/-! DEFINITION. The KeySchedule command (41_key_schedule.md). -/

namespace Sys2Proof.Machine

/-- The rule of KEYNORM (R122). -/
def keynormRule (o : Operands) : Result :=
  if o.keyLen = 0 then Result.raise .emptyKey
  else { code := .ok, nkey := some (normalizedKey o) }

/-- KEYNORM (R122). -/
def execKeynorm (s : State) : Host.Outcome State Fault Refusal :=
  .next (s.complete (keynormRule s.operands))

end Sys2Proof.Machine
end

