-- ==== Sys2Proof/Machine/WordCodec.lean ====
section
/-! DEFINITION. The WordCodec commands (40_word_codec.md). -/

namespace Sys2Proof.Machine

/-- The rule of ENCODE and ENCODE.L (R100), line by line. -/
def encodeRule (wmax : Nat) (wl : Bool) (o : Operands) : Result :=
  let l := o.len.toNat
  let n0 := ceil4 l
  let n := if l = 0 then 0 else n0 + wl.toNat
  if n > wmax then Result.raise .capacity
  else
    { code := .ok
      writes := padCells l ++ (if wl && l != 0 then lengthCells l else [])
      wcount := some (BitVec.ofNat 32 n) }

/-- The rule of DECODE and DECODE.L (R106), line by line. -/
def decodeRule (wmax : Nat) (wl : Bool) (o : Operands) : Result :=
  let n := o.wcount.toNat
  if n > wmax then Result.raise .capacity
  else if n = 0 then { code := .ok, len := some 0 }
  else if !wl then { code := .ok, len := some (BitVec.ofNat 32 (4 * n)) }
  else
    let m := o.data.word (n - 1)
    if lengthValid n m.toNat then { code := .ok, len := some m }
    else malformedLength n none

/-- ENCODE / ENCODE.L (R100). -/
def execEncode (wl : Bool) (s : State) : Host.Outcome State Fault Refusal :=
  .next (s.complete (encodeRule s.params.wmax wl s.operands))

/-- DECODE / DECODE.L (R106). -/
def execDecode (wl : Bool) (s : State) : Host.Outcome State Fault Refusal :=
  .next (s.complete (decodeRule s.params.wmax wl s.operands))

end Sys2Proof.Machine
end

