-- ==== Sys2Proof/Machine/Dispatch.lean ====
section
/-! DEFINITION. One arm per command: the completion step of an accepted command word (60_exceptions.md R185). -/

namespace Sys2Proof.Machine

def exec (i : Instr) (s : State) : Host.Outcome State Fault Refusal :=
  match i with
  | .nop => Sys2Proof.Machine.execNop s
  | .encrypt => Sys2Proof.Machine.execEncrypt s
  | .decrypt => Sys2Proof.Machine.execDecrypt s
  | .keynorm => Sys2Proof.Machine.execKeynorm s
  | .encode wl => Sys2Proof.Machine.execEncode wl s
  | .decode wl => Sys2Proof.Machine.execDecode wl s
  | .mixf => Sys2Proof.Machine.execMixf s
  | .mixr => Sys2Proof.Machine.execMixr s

end Sys2Proof.Machine
end

