-- ==== Sys2Proof/Machine/Bus.lean ====
section
/-! DEFINITION. The bus slave port (20_memory.md R50 to R67; 10_state.md R23 to R42): decoding of offsets, the two
access primitives of R52, and what a host access does while the engine is busy. -/

namespace Sys2Proof.Machine

/-- The byte offset of a location from `BASE` (10_state.md R23). A reserved location stands for any reserved offset
(R37); the one given here is the first. -/
def locOffset : Loc → Nat
  | .cmd => 0x000
  | .status => 0x004
  | .irqEn => 0x008
  | .keyLen => 0x00C
  | .key0 => 0x010
  | .key1 => 0x014
  | .key2 => 0x018
  | .key3 => 0x01C
  | .nkey0 => 0x020
  | .nkey1 => 0x024
  | .nkey2 => 0x028
  | .nkey3 => 0x02C
  | .len => 0x030
  | .wcount => 0x034
  | .cap => 0x038
  | .reserved => 0x03C
  | .data w => 0x1000 + 4 * w

/-- The location at an aligned offset of the region (R23, R52). -/
def locAt (off : Nat) : Loc :=
  if off < 0x1000 then
    match off / 4 with
    | 0 => .cmd
    | 1 => .status
    | 2 => .irqEn
    | 3 => .keyLen
    | 4 => .key0
    | 5 => .key1
    | 6 => .key2
    | 7 => .key3
    | 8 => .nkey0
    | 9 => .nkey1
    | 10 => .nkey2
    | 11 => .nkey3
    | 12 => .len
    | 13 => .wcount
    | 14 => .cap
    | _ => .reserved
  else .data ((off - 0x1000) / 4)

/-- The bus address of a location: `BASE + off(target)` (30_encoding.md R79). -/
def State.addrOf (s : State) (t : Loc) : Nat := s.params.base + locOffset t

/-- The value a location holds (10_state.md R24 to R38): what a read answers when the engine is idle. -/
def State.readLoc (s : State) : Loc → Word
  | .cmd => 0
  | .status => s.statusWord
  | .irqEn => s.irqEnWord
  | .keyLen => s.keyLen
  | .key0 => s.key.w0
  | .key1 => s.key.w1
  | .key2 => s.key.w2
  | .key3 => s.key.w3
  | .nkey0 => s.nkey.w0
  | .nkey1 => s.nkey.w1
  | .nkey2 => s.nkey.w2
  | .nkey3 => s.nkey.w3
  | .len => s.len
  | .wcount => s.wcount
  | .cap => BitVec.ofNat 32 s.params.wmax
  | .reserved => 0
  | .data w => s.data.word w

/-- The locations whose reads are draws while the engine is busy: "`LEN`, `WCOUNT`, `NKEY0..3` or any `DATA[w]`" (R41). -/
def volatileLoc : Loc → Bool
  | .len | .wcount | .nkey0 | .nkey1 | .nkey2 | .nkey3 | .data _ => true
  | .cmd | .status | .irqEn | .keyLen | .key0 | .key1 | .key2 | .key3 | .cap | .reserved => false

/-- The locations whose writes are dropped while the engine is busy: "`CMD`, `KEY_LEN`, `KEY0..3`, `LEN`, `WCOUNT` or
any `DATA[w]`" (R42). -/
def frozenLoc : Loc → Bool
  | .cmd | .keyLen | .key0 | .key1 | .key2 | .key3 | .len | .wcount | .data _ => true
  | .status | .irqEn | .nkey0 | .nkey1 | .nkey2 | .nkey3 | .cap | .reserved => false

/-- A write that takes effect (R24 to R38): `CMD` starts a command (60 R184), `STATUS` is write-1-to-clear, read-only
and reserved locations ignore it. -/
def State.writeLoc (s : State) (t : Loc) (v : Word) : State :=
  match t with
  | .cmd => s.accept v
  | .status => s.writeStatus v
  | .irqEn => s.writeIrqEn v
  | .keyLen => { s with keyLen := v }
  | .key0 => { s with key := { s.key with w0 := v } }
  | .key1 => { s with key := { s.key with w1 := v } }
  | .key2 => { s with key := { s.key with w2 := v } }
  | .key3 => { s with key := { s.key with w3 := v } }
  | .len => { s with len := v }
  | .wcount => { s with wcount := v }
  | .data w => { s with data := s.data.writeAll (wordCells w v) }
  | .nkey0 | .nkey1 | .nkey2 | .nkey3 | .cap | .reserved => s

/-- The address lies in the region `[BASE, BASE + 0x1000 + 4·WMAX)` (20 R51). -/
def State.inRegion (s : State) (addr : Nat) : Bool :=
  decide (s.params.base ≤ addr) && decide (addr < s.params.base + regionSize s.params.wmax)

/-- The draw a volatile read answers while a command is in flight (R41); `none` when the engine is idle. -/
def State.draw (s : State) : Option Word :=
  match s.latch with
  | some l => some (Config.busyDraw l.seq s.draws)
  | none => none

/-- `MemRead(addr, 4)` (20 R52): the answer, and the state after it, which differs only in the count of draws taken. -/
def State.memRead (s : State) (addr : Nat) : Response × State :=
  if !s.inRegion addr then (.elsewhere, s)
  else if addr % 4 ≠ 0 then (.error, s)
  else
    let t := locAt (addr - s.params.base)
    match s.draw, volatileLoc t with
    | some d, true => (.value d, { s with draws := s.draws + 1 })
    | _, _ => (.value (s.readLoc t), s)

/-- `MemWrite(addr, 4, v)` (20 R52, 10_state.md R42): the answer and the state after it. -/
def State.memWrite (s : State) (addr : Nat) (v : Word) : Response × State :=
  if !s.inRegion addr then (.elsewhere, s)
  else if addr % 4 ≠ 0 then (.error, s)
  else
    let t := locAt (addr - s.params.base)
    if s.busy && frozenLoc t then (.okay, { s with werr := true })
    else (.okay, s.writeLoc t v)

/-- The value a response carries to the host: an ERROR read returns `0x00000000` (R54). -/
def Response.data : Response → Word
  | .value v => v
  | .error => 0
  | .okay => 0
  | .elsewhere => 0

/-- Record an answer in the script's trace (30_encoding.md R79). -/
def State.record (s : State) (r : Response) : State := { s with trace := r :: s.trace }

end Sys2Proof.Machine
end

