-- ==== Sys2Proof/Machine/Script.lean ====
section
/-! DEFINITION. The host as an agent: one step of its script (00_scope.md R17, 20_memory.md R62), and the expansion of
the script lines of 30_encoding.md R79 and R80 into bus accesses. -/

namespace Sys2Proof.Machine

/-- The write that starts a command: `WR CMD, <word>` (R79). -/
def cmdWrite (base : Nat) (i : Instr) : HostOp := .write (base + locOffset .cmd) (encode i)

/-- `WR DATA[w+i], v_i` for consecutive words (R80). -/
def dataWrites (base : Nat) : Nat → List Word → List HostOp
  | _, [] => []
  | w, v :: vs => .write (base + locOffset (.data w)) v :: dataWrites base (w + 1) vs

/-- `WR KEYi, v_i` for consecutive key words from `KEY(i)` (R80). -/
def keyWrites (base : Nat) : Nat → List Word → List HostOp
  | _, [] => []
  | i, v :: vs => .write (base + locOffset .key0 + 4 * i) v :: keyWrites base (i + 1) vs

/-- The bus accesses of one script line (R79, R80). -/
def expandLine (base : Nat) : ScriptLine → List HostOp
  | .wr t v => [.write (base + locOffset t) v]
  | .rd t => [.read (base + locOffset t)]
  | .cmd i => [cmdWrite base i]
  | .wait => [.wait]
  | .run i => [cmdWrite base i, .wait]
  | .ack => [.write (base + locOffset .status) 0x00000102]
  | .wrb w bytes => dataWrites base w (packWords bytes)
  | .wrk bytes =>
    .write (base + locOffset .keyLen) (BitVec.ofNat 32 bytes.length) :: keyWrites base 0 (packWords (bytes.take 16))
  | .expect t v => [.expect (base + locOffset t) v]

/-- A whole script, "a sequence of bus accesses, one per line" (R79). -/
def expandScript (base : Nat) (ls : List ScriptLine) : List HostOp := ls.flatMap (expandLine base)

/-- Take the first host operation off the list. -/
def State.popHost (s : State) : State := { s with host := s.host.tail }

/-- A failed check: the script fails (R80), and its remaining lines do not run (log entry 12). -/
def State.failScript (s : State) : State := { s with scriptFailed := true, host := [] }

/-- One host operation reaches the engine (R62): the access, its answer in the trace, and the host's place in its
script. `WAIT` stays in place while the `BUSY` it reads is 1 (R80). A host with nothing to do does nothing. -/
def State.hostStep (s : State) : State :=
  match s.host with
  | [] => s
  | .read addr :: _ =>
    let r := s.popHost.memRead addr
    r.2.record r.1
  | .write addr v :: _ =>
    let r := s.popHost.memWrite addr v
    r.2.record r.1
  | .wait :: _ =>
    let r := s.memRead (s.addrOf .status)
    let t := r.2.record r.1
    if r.1.data.getLsbD 0 then t else t.popHost
  | .expect addr v :: _ =>
    let r := s.popHost.memRead addr
    let t := r.2.record r.1
    if r.1 = .value v then t else t.failScript

end Sys2Proof.Machine
end

