-- ==== Sys2Proof/Machine/Sequencer.lean ====
section
/-! DEFINITION. The agents' turns: which one moves (00_scope.md R17), and the engine sequencer's completion step, which
decodes the latched word and runs it (60_exceptions.md R185). -/

namespace Sys2Proof.Machine

/-- Which agent moves now: the first entry of the schedule; with an empty schedule, the sequencer if a command is in
flight (70 R222: "the completion step is always enabled while `BUSY = 1`"), else the host (log entry 4). -/
def State.nextTurn (s : State) : Turn :=
  match s.turns with
  | t :: _ => t
  | [] => if s.busy then .complete else .host

/-- Take the first entry off the schedule. -/
def State.popTurn (s : State) : State := { s with turns := s.turns.tail }

/-- Run a latched command word (60 R185, "rule_of(latch.c)"): the command it decodes to, or, for an illegal word, the
ILLEGAL_CMD completion (30_encoding.md R75). -/
def execWord (c : Word) (s : State) : Host.Outcome State Fault Refusal :=
  match decode c with
  | .ok i => exec i s
  | .error _ => .next (s.complete illegalRule)

/-- The sequencer's completion step; with no command in flight there is none to take. -/
def State.completeStep (s : State) : Host.Outcome State Fault Refusal :=
  match s.latch with
  | some l => execWord l.word s
  | none => .next s

/-- One turn of one agent. -/
def takeTurn (t : Turn) (s : State) : Host.Outcome State Fault Refusal :=
  match t with
  | .host => .next s.hostStep
  | .work => .next s.work
  | .complete => s.completeStep
  | .reset => .next s.resetEngine

/-- The word of a table row laid into the latch as acceptance lays it (60 R184), and the sequencer's turn next. -/
def State.loadCommand (s : State) (c : Word) : State :=
  let t := s.accept c
  { t with turns := .complete :: t.turns }

end Sys2Proof.Machine
end

