-- ==== Sys2Proof/Machine/PureFunctions.lean ====
section
/-! DEFINITION. The pure functions the spec gives beside the commands (40_word_codec.md R105, R111; 41_key_schedule.md
R124; 43_cipher.md R166, R174), on byte strings and word lists. No meaning calls them: the obligations state that the
commands compute them. -/

namespace Sys2Proof.Machine

/-- `wc_encode(b, wl)` (R105). -/
def wcEncode (b : List Byte) (wl : Bool) : List Word :=
  packWords b ++ (if wl && !b.isEmpty then [BitVec.ofNat 32 b.length] else [])

/-- `wc_decode(v, wl)` (R111). -/
def wcDecode (v : List Word) (wl : Bool) : Except ResultCode (List Byte) :=
  if v.isEmpty then .ok []
  else if !wl then .ok (unpackWords v)
  else
    let m := (wordAt v (v.length - 1)).toNat
    if 4 * (v.length - 1) ≤ m + 3 ∧ m ≤ 4 * (v.length - 1) then .ok ((unpackWords v).take m)
    else .error .malformedLength

/-- `ks_normalize(key)` (R124): "`k_i` the packing of bytes `4i..4i+3` of `key` followed by 16 zero bytes". -/
def ksNormalize (key : List Byte) : Key4 :=
  let b := fun i => (key ++ List.replicate 16 0).getD i 0
  { w0 := wordOf (b 0) (b 1) (b 2) (b 3)
    w1 := wordOf (b 4) (b 5) (b 6) (b 7)
    w2 := wordOf (b 8) (b 9) (b 10) (b 11)
    w3 := wordOf (b 12) (b 13) (b 14) (b 15) }

/-- `xxtea_encrypt(m, key)` (R166). -/
def xxteaEncrypt (m key : List Byte) : Except ResultCode (List Byte) :=
  if m.isEmpty then .ok []
  else if key.isEmpty then .error .emptyKey
  else wcDecode (xxteaFwd (ksNormalize key) (wcEncode m true)) false

/-- `xxtea_decrypt(c, key)` (R174). -/
def xxteaDecrypt (c key : List Byte) : Except ResultCode (List Byte) :=
  if c.isEmpty then .ok []
  else if key.isEmpty then .error .emptyKey
  else if c.length % 4 ≠ 0 then .error .ctAlign
  else if c.length = 4 then .error .shortBlock
  else wcDecode (xxteaRev (ksNormalize key) (wcEncode c false)) true

/-- The key registers present a byte string as `WRK` writes it (30_encoding.md R80; R124): `KEY_LEN` is its length and
its first `min(16, len)` bytes lie in `KEY0..3`. -/
def Operands.presentsKey (o : Operands) (key : List Byte) : Prop :=
  o.keyLen.toNat = key.length ∧ ∀ i < min 16 key.length, o.key.byte i = key.getD i 0

end Sys2Proof.Machine
end

