-- ==== Sys2Proof/Safety.lean ====
section
/-! DEFINITION. The invariant of the engine: what the spec says holds at all times, and the model's own form of data. -/

namespace Sys2Proof.Machine

/-- While a command is in flight, the latched operands are the registers' own: no host write reaches a running command
(70_reset_and_hazards.md R220). -/
def State.snapshotFrozen (s : State) : Bool :=
  match s.latch with
  | some l => decide (l.ops = s.liveOperands)
  | none => true

/-- `DONE` "is never 1 while `BUSY` is 1" (10_state.md R27). -/
def State.statusConsistent (s : State) : Bool := !(s.busy && s.done)

/-- The state after a completion step that writes only `STATUS` (60_exceptions.md R182, R185): BUSY 0, DONE 1, ERR the
code, everything else as before. -/
def State.finished (s : State) (c : ResultCode) : State := { s with err := c, latch := none, done := true }

/-- The invariant every step keeps: the parameters meet R7, the data buffer is canonical and inside its window (R38),
the status bits are consistent (R27), the operands of a running command are frozen (R220). -/
def State.inv (s : State) : Bool :=
  s.params.wf && s.data.wf s.params.wmax && s.statusConsistent && s.snapshotFrozen

end Sys2Proof.Machine
end

