-- ==== Sys2Proof/Certificates/Slice0/Obligations.lean ====
section
/-! DEFINITION. The statements for the provers. `o` is the operand snapshot a completion works on
(`State.operands`), `L` and `N` the spec's byte length and word count. A hypothesis `s.snapshotFrozen = true` says that
the snapshot is the registers' own content (70_reset_and_hazards.md R220); it holds whenever no command is in flight,
and `StepKeepsInvariant` states that no step breaks it. -/

open Sys2Proof Sys2Proof.Machine

/-! ### Encoding -/

/-- The table of legal command words, 30_encoding.md R72, row by row. -/
def Sys2Proof.commandTable : List (Word × Instr) :=
  [(0x00000000, .nop), (0x00000001, .encrypt), (0x00000002, .decrypt), (0x00000003, .keynorm),
   (0x00000004, .encode false), (0x00000014, .encode true), (0x00000005, .decode false), (0x00000015, .decode true),
   (0x00000006, .mixf), (0x00000007, .mixr)]

/-- Every row of R72's table decodes to its command (a sanity statement). -/
def Obligations.TableWordsDecode : Prop :=
  ∀ row ∈ commandTable, decode row.1 = .ok row.2

/-- R72: "The complete set of legal command words is exactly these ten values". -/
def Obligations.ExactlyTenWordsAreCommands : Prop :=
  ∀ (c : Word) (i : Instr), decode c = .ok i ↔ (c, i) ∈ commandTable

/-- Decoding and encoding undo each other, on every command and on every word that decodes. -/
def Obligations.DecodeAndEncodeAgree : Prop :=
  (∀ i : Instr, i.wf = true → decode (encode i) = .ok i) ∧
  (∀ (c : Word) (i : Instr), decode c = .ok i → encode i = c)

/-- R75: the words that decode are those of the legality formula; any other word is accepted (BUSY rises) and
completes with ILLEGAL_CMD and no other effect. -/
def Obligations.IllegalWordsCompleteWithoutEffect : Prop :=
  (∀ c : Word, legalWord c = true ↔ ∃ i, decode c = .ok i) ∧
  (∀ (s : State) (c : Word), legalWord c = false →
    (s.accept c).busy = true ∧
    (s.accept c).completeStep = .next ((s.accept c).finished .illegalCmd))

/-! ### Completion, frames, errors -/

/-- Every command, in every state, ends in exactly one completion step, which sets BUSY 0 and DONE 1 and leaves
KEY_LEN, KEY0..3, IRQ_EN, CAP, WERR and everything outside the engine unchanged (R40, R29). -/
def Obligations.EveryCommandCompletes : Prop :=
  ∀ (i : Instr) (s : State), ∃ t, exec i s = .next t ∧
    t.latch = none ∧ t.done = true ∧
    t.params = s.params ∧ t.keyLen = s.keyLen ∧ t.key = s.key ∧ t.ie = s.ie ∧ t.werr = s.werr ∧
    t.draws = s.draws ∧ t.host = s.host ∧ t.turns = s.turns ∧ t.trace = s.trace ∧
    t.scriptFailed = s.scriptFailed

/-- The frame of each command, from the table of R40: which of NKEY, DATA, WCOUNT, LEN a command leaves alone. -/
def Obligations.CommandsWriteOnlyTheirRegisters : Prop :=
  ∀ (i : Instr) (s t : State), exec i s = .next t →
    (i ≠ .keynorm → i ≠ .encrypt → i ≠ .decrypt → t.nkey = s.nkey) ∧
    (i = .nop ∨ i = .keynorm → t.data = s.data) ∧
    (i = .nop ∨ i = .keynorm ∨ i = .mixf ∨ i = .mixr → t.wcount = s.wcount ∧ t.len = s.len) ∧
    (∀ wl, i = .encode wl → t.len = s.len) ∧
    (∀ wl, i = .decode wl → t.err ≠ .malformedLength → t.data = s.data ∧ t.wcount = s.wcount)

/-- R182: an error completion writes only STATUS, except MALFORMED_LENGTH, which scrubs `DATA[0..N-1]`, LEN and WCOUNT
and, in DECRYPT, leaves the NKEY write. -/
def Obligations.ErrorsWriteOnlyStatus : Prop :=
  ∀ (i : Instr) (s t : State), exec i s = .next t →
    (t.err ≠ .ok → t.err ≠ .malformedLength → t = s.finished t.err) ∧
    (t.err = .malformedLength →
      let n := if i = .decrypt then s.operands.len.toNat / 4 else s.operands.wcount.toNat
      t = { s.finished .malformedLength with
              nkey := if i = .decrypt then normalizedKey s.operands else s.nkey
              data := t.data, wcount := 0, len := 0 } ∧
      ∀ a, t.data.byte a = if a < 4 * n then 0 else s.data.byte a)

/-- The code each command reports: the first check of R187's table that applies. -/
def Sys2Proof.expectedCode (i : Instr) (wmax : Nat) (o : Operands) : ResultCode :=
  let l := o.len.toNat
  let n := o.wcount.toNat
  match i with
  | .nop => .ok
  | .keynorm => if o.keyLen = 0 then .emptyKey else .ok
  | .encode wl => if (if l = 0 then 0 else ceil4 l + wl.toNat) > wmax then .capacity else .ok
  | .decode wl =>
    if n > wmax then .capacity
    else match wcDecode (o.data.block n) wl with
      | .ok _ => .ok
      | .error _ => .malformedLength
  | .mixf | .mixr => if n > wmax then .capacity else if n < 2 then .shortBlock else .ok
  | .encrypt =>
    if l = 0 then .ok else if o.keyLen = 0 then .emptyKey else if ceil4 l + 1 > wmax then .capacity else .ok
  | .decrypt =>
    if l = 0 then .ok
    else if o.keyLen = 0 then .emptyKey
    else if l % 4 ≠ 0 then .ctAlign
    else if l / 4 > wmax then .capacity
    else if l / 4 < 2 then .shortBlock
    else match wcDecode (xxteaRev (normalizedKey o) (o.data.block (l / 4))) true with
      | .ok _ => .ok
      | .error _ => .malformedLength

/-- R187: one code a command, the first of its check order; for an illegal word no other check is made. -/
def Obligations.ErrorCodesFollowTheCheckOrder : Prop :=
  (∀ (i : Instr) (s : State), ∃ t, exec i s = .next t ∧ t.err = expectedCode i s.params.wmax s.operands) ∧
  (∀ (c : Word) (s : State), legalWord c = false → execWord c s = .next (s.finished .illegalCmd))

/-- R160: NOP has no effect beyond the completion step. -/
def Obligations.NopOnlyCompletes : Prop :=
  ∀ s : State, exec .nop s = .next (s.finished .ok)

/-! ### KeySchedule -/

/-- KEYNORM computes `ks_normalize` of the key the registers present, or fails with EMPTY_KEY (R120, R122, R124). -/
def Obligations.KeynormNormalizesThePresentedKey : Prop :=
  ∀ (s : State) (key : List Byte), s.operands.presentsKey key →
    exec .keynorm s =
      .next (if key = [] then s.finished .emptyKey else { s.finished .ok with nkey := ksNormalize key })

/-- R121: byte `j` of the normalised key is key byte `j`, or zero from byte `KEY_LEN` on. -/
def Obligations.KeynormMasksAbsentKeyBytes : Prop :=
  ∀ s : State, s.operands.keyLen ≠ 0 →
    ∃ t, exec .keynorm s = .next t ∧ t = { s.finished .ok with nkey := t.nkey } ∧
      ∀ j < 16, t.nkey.byte j = if j < s.operands.keyLen.toNat then s.operands.key.byte j else 0

/-- R125: two keys of 16 bytes or more that agree on their first 16 bytes give the same words and the same ciphertext. -/
def Obligations.KeyBytesBeyondSixteenDoNotMatter : Prop :=
  ∀ (key key' m : List Byte), 16 ≤ key.length → 16 ≤ key'.length → key.take 16 = key'.take 16 →
    ksNormalize key = ksNormalize key' ∧ xxteaEncrypt m key = xxteaEncrypt m key'

/-- R126: a short key and the same key with a zero byte appended normalise alike, a long key and its first 16 bytes
too; the empty key alone fails, where all-zero keys give zero words. -/
def Obligations.TrailingZeroKeyBytesDoNotMatter : Prop :=
  (∀ key : List Byte, key ≠ [] → key.length < 16 → ksNormalize (key ++ [0]) = ksNormalize key) ∧
  (∀ key : List Byte, 16 ≤ key.length → ksNormalize (key.take 16) = ksNormalize key) ∧
  (∀ n, 1 ≤ n → ksNormalize (List.replicate n 0) = Key4.zero) ∧
  (∀ s : State, s.operands.keyLen = 0 → exec .keynorm s = .next (s.finished .emptyKey))

/-! ### WordCodec -/

/-- ENCODE and ENCODE.L: CAPACITY when the words do not fit, else `DATA[0..N-1] = wc_encode(B(0..L-1), WL)` and
`WCOUNT = N`, and no other register (R100, R102, R105). -/
def Obligations.EncodeComputesWcEncode : Prop :=
  ∀ (wl : Bool) (s : State), s.snapshotFrozen = true →
    let l := s.operands.len.toNat
    let n := if l = 0 then 0 else ceil4 l + wl.toNat
    (s.params.wmax < n → exec (.encode wl) s = .next (s.finished .capacity)) ∧
    (n ≤ s.params.wmax → ∃ t, exec (.encode wl) s = .next t ∧
      t = { s.finished .ok with data := t.data, wcount := BitVec.ofNat 32 n } ∧
      t.data.block n = wcEncode (s.data.bytes l) wl)

/-- R101 and R103: ENCODE zeroes the pad bytes whatever they held, writes the length word (the last word of the buffer)
when `WL = 1` and `L > 0`, and touches no other byte. -/
def Obligations.EncodeWritesPadAndLengthOnly : Prop :=
  ∀ (wl : Bool) (s : State), s.params.wf = true →
    let l := s.operands.len.toNat
    l ≠ 0 → ceil4 l + wl.toNat ≤ s.params.wmax →
    ∃ t, exec (.encode wl) s = .next t ∧
      (∀ a, l ≤ a → a < 4 * ceil4 l → t.data.byte a = 0) ∧
      (wl = true → t.data.word (ceil4 l) = s.operands.len ∧ t.wcount.toNat = ceil4 l + 1) ∧
      (∀ a, a < l ∨ (4 * ceil4 l ≤ a ∧ (wl = true → 4 * ceil4 l + 4 ≤ a)) → t.data.byte a = s.data.byte a)

/-- R104 and R110: an empty input encodes to the empty word buffer, an empty word buffer decodes to the empty output,
for both values of `WL`, with no DATA write. -/
def Obligations.EmptyBuffersStayEmpty : Prop :=
  (∀ (wl : Bool) (s : State), s.operands.len = 0 →
    exec (.encode wl) s = .next { s.finished .ok with wcount := 0 }) ∧
  (∀ (wl : Bool) (s : State), s.operands.wcount = 0 →
    exec (.decode wl) s = .next { s.finished .ok with len := 0 })

/-- DECODE and DECODE.L: CAPACITY when the buffer named does not exist, else `B(0..LEN-1) = wc_decode(DATA[0..N-1], WL)`
with nothing but LEN written, or the scrub of MALFORMED_LENGTH (R106 to R111, R114). -/
def Obligations.DecodeComputesWcDecode : Prop :=
  ∀ (wl : Bool) (s : State), s.snapshotFrozen = true →
    let n := s.operands.wcount.toNat
    (s.params.wmax < n → exec (.decode wl) s = .next (s.finished .capacity)) ∧
    (n ≤ s.params.wmax →
      match wcDecode (s.data.block n) wl with
      | .ok out =>
        exec (.decode wl) s = .next { s.finished .ok with len := BitVec.ofNat 32 out.length } ∧
          s.data.bytes out.length = out
      | .error c =>
        c = .malformedLength ∧ ∃ t, exec (.decode wl) s = .next t ∧
          t = { s.finished .malformedLength with data := t.data, wcount := 0, len := 0 } ∧
          ∀ a, t.data.byte a = if a < 4 * n then 0 else s.data.byte a)

/-- R107: the length word `m` is valid iff `nb − 3 ≤ m ≤ nb`, `nb = 4·(N−1)`, read unsigned; on success `LEN = m`,
so the output is the first `m` bytes of the unchanged buffer. -/
def Obligations.DecodeValidatesTheLengthWord : Prop :=
  ∀ s : State,
    let n := s.operands.wcount.toNat
    let m := (s.operands.data.word (n - 1)).toNat
    1 ≤ n → n ≤ s.params.wmax → ∃ t, exec (.decode true) s = .next t ∧
      (t.err = .ok ↔ 4 * (n - 1) ≤ m + 3 ∧ m ≤ 4 * (n - 1)) ∧
      (t.err = .ok → t.len.toNat = m ∧ t.len.toNat ≤ 4 * (n - 1) ∧ t.data = s.data)

/-- R112: the codec with a length field is a round trip. -/
def Obligations.CodecRoundTrip : Prop :=
  ∀ (p : Params) (b : List Byte), p.wf = true → ceil4 b.length + 1 ≤ p.wmax →
    wcDecode (wcEncode b true) true = .ok b

/-- R113: without a length field the pad bytes stay. -/
def Obligations.CodecRoundTripWithoutLengthKeepsPadBytes : Prop :=
  ∀ b : List Byte,
    wcDecode (wcEncode b false) false = .ok (b ++ List.replicate ((4 - b.length % 4) % 4) 0)

/-! ### Mixing engine -/

/-- R131: the round count, its table and its bounds. -/
def Obligations.RoundCountTable : Prop :=
  (∀ n, rounds n = 6 + 52 / n) ∧
  (rounds 2 = 32 ∧ rounds 3 = 23 ∧ rounds 4 = 19 ∧ rounds 5 = 16 ∧ rounds 6 = 14 ∧ rounds 7 = 13 ∧ rounds 8 = 12) ∧
  (∀ n, 9 ≤ n → n ≤ 10 → rounds n = 11) ∧ (∀ n, 11 ≤ n → n ≤ 13 → rounds n = 10) ∧
  (∀ n, 14 ≤ n → n ≤ 17 → rounds n = 9) ∧ (∀ n, 18 ≤ n → n ≤ 26 → rounds n = 8) ∧
  (∀ n, 27 ≤ n → n ≤ 52 → rounds n = 7) ∧ (∀ n, 53 ≤ n → rounds n = 6) ∧
  (∀ n, 2 ≤ n → 6 ≤ rounds n ∧ rounds n ≤ 32)

/-- R136: the loop that carries `z` computes the transform written with predecessors and successors. -/
def Obligations.ForwardLoopComputesForwardTransform : Prop :=
  ∀ (k : Key4) (v : List Word), 2 ≤ v.length → fwdLoop k v = xxteaFwd k v

/-- R139 and R143: the `while sum != 0` loop runs exactly `rounds` times and computes the reverse transform; the sum
after `j` decrements is zero only at `j = rounds`. -/
def Obligations.ReverseLoopRunsExactlyRoundsTimes : Prop :=
  (∀ (k : Key4) (v : List Word) (fuel : Nat), 2 ≤ v.length → rounds v.length ≤ fuel →
    revLoop k fuel v = (rounds v.length, xxteaRev k v)) ∧
  (∀ n j, 2 ≤ n → j ≤ rounds n → (BitVec.ofNat 32 (rounds n - j) * delta = 0 ↔ j = rounds n))

/-- R142: the two transforms are inverse to each other on blocks of two words or more. -/
def Obligations.TransformsAreInverse : Prop :=
  ∀ (k : Key4) (v : List Word), 2 ≤ v.length →
    xxteaRev k (xxteaFwd k v) = v ∧ xxteaFwd k (xxteaRev k v) = v ∧
    (xxteaFwd k v).length = v.length ∧ (xxteaRev k v).length = v.length

/-- MIXF (R140): CAPACITY, SHORT_BLOCK, or the forward transform of `DATA[0..N-1]` under NKEY and nothing else. -/
def Obligations.MixfAppliesForwardTransform : Prop :=
  ∀ s : State,
    let n := s.operands.wcount.toNat
    (s.params.wmax < n → exec .mixf s = .next (s.finished .capacity)) ∧
    (n ≤ s.params.wmax → n < 2 → exec .mixf s = .next (s.finished .shortBlock)) ∧
    (n ≤ s.params.wmax → 2 ≤ n → ∃ t, exec .mixf s = .next t ∧
      t = { s.finished .ok with data := t.data } ∧
      t.data.block n = xxteaFwd s.operands.nkey (s.operands.data.block n) ∧
      ∀ a, 4 * n ≤ a → t.data.byte a = s.data.byte a)

/-- MIXR (R145): CAPACITY, SHORT_BLOCK, or the reverse transform of `DATA[0..N-1]` under NKEY and nothing else. -/
def Obligations.MixrAppliesReverseTransform : Prop :=
  ∀ s : State,
    let n := s.operands.wcount.toNat
    (s.params.wmax < n → exec .mixr s = .next (s.finished .capacity)) ∧
    (n ≤ s.params.wmax → n < 2 → exec .mixr s = .next (s.finished .shortBlock)) ∧
    (n ≤ s.params.wmax → 2 ≤ n → ∃ t, exec .mixr s = .next t ∧
      t = { s.finished .ok with data := t.data } ∧
      t.data.block n = xxteaRev s.operands.nkey (s.operands.data.block n) ∧
      ∀ a, 4 * n ≤ a → t.data.byte a = s.data.byte a)

/-- R141: a block of fewer than two words is refused by MIXF and MIXR; so is a one-word ciphertext by DECRYPT (R171),
once the key, which is checked first, is there (R165). -/
def Obligations.ShortBlocksAreRejected : Prop :=
  ∀ s : State, s.params.wf = true →
    (s.operands.wcount.toNat ≤ 1 →
      exec .mixf s = .next (s.finished .shortBlock) ∧ exec .mixr s = .next (s.finished .shortBlock)) ∧
    (s.operands.len = 4 → s.operands.keyLen ≠ 0 → exec .decrypt s = .next (s.finished .shortBlock))

/-! ### Cipher -/

/-- R163 and R169: with `LEN = 0`, ENCRYPT and DECRYPT complete with the empty result for any key, writing `WCOUNT = 0`
and nothing else; the pure functions agree. -/
def Obligations.EmptyInputIsTheFastPath : Prop :=
  (∀ s : State, s.snapshotFrozen = true → s.operands.len = 0 → s.len = 0 ∧
    exec .encrypt s = .next { s.finished .ok with wcount := 0 } ∧
    exec .decrypt s = .next { s.finished .ok with wcount := 0 }) ∧
  (∀ key : List Byte, xxteaEncrypt [] key = .ok [] ∧ xxteaDecrypt [] key = .ok [])

/-- ENCRYPT: its three early results in their order, and otherwise `B(0..LEN-1) = xxtea_encrypt(m, key)` with NKEY,
WCOUNT and LEN as R161 gives them and no byte beyond the ciphertext changed (R161, R162, R164, R166). -/
def Obligations.EncryptComputesXxteaEncrypt : Prop :=
  ∀ (s : State) (key : List Byte), s.snapshotFrozen = true → s.operands.presentsKey key →
    let l := s.operands.len.toNat
    let n := ceil4 l + 1
    (l = 0 → exec .encrypt s = .next { s.finished .ok with wcount := 0 }) ∧
    (l ≠ 0 → key = [] → exec .encrypt s = .next (s.finished .emptyKey)) ∧
    (l ≠ 0 → key ≠ [] → s.params.wmax < n → exec .encrypt s = .next (s.finished .capacity)) ∧
    (l ≠ 0 → key ≠ [] → n ≤ s.params.wmax → ∃ t, exec .encrypt s = .next t ∧
      t = { s.finished .ok with
              nkey := ksNormalize key
              data := t.data
              wcount := BitVec.ofNat 32 n
              len := BitVec.ofNat 32 (4 * n) } ∧
      xxteaEncrypt (s.data.bytes l) key = .ok (t.data.bytes (4 * n)) ∧
      ∀ a, 4 * n ≤ a → t.data.byte a = s.data.byte a)

/-- DECRYPT: its five early results in their order, and otherwise `B(0..LEN-1) = xxtea_decrypt(c, key)` with NKEY,
WCOUNT and LEN as R168 gives them, or MALFORMED_LENGTH with the scrub and the NKEY write (R168, R172, R173, R174). -/
def Obligations.DecryptComputesXxteaDecrypt : Prop :=
  ∀ (s : State) (key : List Byte), s.snapshotFrozen = true → s.operands.presentsKey key →
    let l := s.operands.len.toNat
    let n := l / 4
    (l = 0 → exec .decrypt s = .next { s.finished .ok with wcount := 0 }) ∧
    (l ≠ 0 → key = [] → exec .decrypt s = .next (s.finished .emptyKey)) ∧
    (l ≠ 0 → key ≠ [] → l % 4 ≠ 0 → exec .decrypt s = .next (s.finished .ctAlign)) ∧
    (l ≠ 0 → key ≠ [] → l % 4 = 0 → s.params.wmax < n → exec .decrypt s = .next (s.finished .capacity)) ∧
    (l ≠ 0 → key ≠ [] → l % 4 = 0 → n ≤ s.params.wmax → n < 2 → exec .decrypt s = .next (s.finished .shortBlock)) ∧
    (key ≠ [] → l % 4 = 0 → n ≤ s.params.wmax → 2 ≤ n → ∃ t, exec .decrypt s = .next t ∧
      (∀ a, 4 * n ≤ a → t.data.byte a = s.data.byte a) ∧
      match xxteaDecrypt (s.data.bytes l) key with
      | .ok m =>
        t = { s.finished .ok with
                nkey := ksNormalize key
                data := t.data
                wcount := BitVec.ofNat 32 n
                len := BitVec.ofNat 32 m.length } ∧
          t.data.bytes m.length = m ∧
          t.data.block n = xxteaRev (ksNormalize key) (s.data.block n)
      | .error c =>
        c = .malformedLength ∧
          t = { s.finished .malformedLength with
                  nkey := ksNormalize key
                  data := t.data
                  wcount := 0
                  len := 0 } ∧
          ∀ a, a < 4 * n → t.data.byte a = 0)

/-- R167: a successful non-empty ENCRYPT gives `LEN = 4·(ceil4(L) + 1)`, a multiple of 4, at least 8, between `L + 4` and
`L + 7`. -/
def Obligations.EncryptOutputLength : Prop :=
  ∀ s : State, s.params.wf = true →
    let l := s.operands.len.toNat
    l ≠ 0 → s.operands.keyLen ≠ 0 → ceil4 l + 1 ≤ s.params.wmax →
    ∃ t, exec .encrypt s = .next t ∧ t.err = .ok ∧
      t.len.toNat = 4 * (ceil4 l + 1) ∧ t.len.toNat % 4 = 0 ∧ 8 ≤ t.len.toNat ∧
      l + 4 ≤ t.len.toNat ∧ t.len.toNat ≤ l + 7

/-- R175: decryption undoes encryption. -/
def Obligations.DecryptUndoesEncrypt : Prop :=
  ∀ (p : Params) (m key : List Byte), p.wf = true → m ≠ [] → key ≠ [] → ceil4 m.length + 1 ≤ p.wmax →
    ∃ c, xxteaEncrypt m key = .ok c ∧ xxteaDecrypt c key = .ok m

/-- The same on the engine: ENCRYPT and then DECRYPT, from an idle engine and with no host write between them, give the
plaintext bytes and their length back. -/
def Obligations.EngineRoundTrip : Prop :=
  ∀ s : State, s.params.wf = true → s.latch = none → s.len ≠ 0 → s.keyLen ≠ 0 →
    ceil4 s.len.toNat + 1 ≤ s.params.wmax →
    ∃ a b, exec .encrypt (s.accept (encode .encrypt)) = .next a ∧
      exec .decrypt (a.accept (encode .decrypt)) = .next b ∧
      a.err = .ok ∧ b.err = .ok ∧ b.len = s.len ∧ b.data.bytes s.len.toNat = s.data.bytes s.len.toNat

/-- R177: ENCRYPT has the effect of KEYNORM, ENCODE.L, MIXF, DECODE on NKEY, DATA, WCOUNT and LEN; DECRYPT that of
KEYNORM, a write of `LEN/4` to WCOUNT, MIXR, DECODE.L. -/
def Obligations.CipherCommandsDecompose : Prop :=
  (∀ s : State, s.params.wf = true → s.latch = none → s.len ≠ 0 → s.keyLen ≠ 0 →
    ceil4 s.len.toNat + 1 ≤ s.params.wmax →
    ∃ a k e f d, exec .encrypt (s.accept (encode .encrypt)) = .next a ∧
      exec .keynorm (s.accept (encode .keynorm)) = .next k ∧
      exec (.encode true) (k.accept (encode (.encode true))) = .next e ∧
      exec .mixf (e.accept (encode .mixf)) = .next f ∧
      exec (.decode false) (f.accept (encode (.decode false))) = .next d ∧
      a.err = .ok ∧ d.err = .ok ∧ a.nkey = d.nkey ∧ a.wcount = d.wcount ∧ a.len = d.len ∧
      ∀ i, a.data.byte i = d.data.byte i) ∧
  (∀ s : State, s.params.wf = true → s.latch = none → s.keyLen ≠ 0 → s.len.toNat % 4 = 0 → 8 ≤ s.len.toNat →
    s.len.toNat / 4 ≤ s.params.wmax →
    ∃ a k r d, exec .decrypt (s.accept (encode .decrypt)) = .next a ∧
      exec .keynorm (s.accept (encode .keynorm)) = .next k ∧
      exec .mixr ((k.writeLoc .wcount (BitVec.ofNat 32 (s.len.toNat / 4))).accept (encode .mixr)) = .next r ∧
      exec (.decode true) (r.accept (encode (.decode true))) = .next d ∧
      a.err = d.err ∧ a.nkey = d.nkey ∧ a.wcount = d.wcount ∧ a.len = d.len ∧
      ∀ i, a.data.byte i = d.data.byte i)

/-- R176: the reference's decryption of a ciphertext whose length is no multiple of 4 is what KEYNORM, ENCODE, MIXR,
DECODE.L compute, except that MIXR raises SHORT_BLOCK below two words. -/
def Obligations.ReferencePathForUnalignedCiphertext : Prop :=
  ∀ (s : State) (key : List Byte), s.params.wf = true → s.latch = none → s.liveOperands.presentsKey key → key ≠ [] →
    s.len.toNat % 4 ≠ 0 → ceil4 s.len.toNat ≤ s.params.wmax →
    ∃ k e r, exec .keynorm (s.accept (encode .keynorm)) = .next k ∧
      exec (.encode false) (k.accept (encode (.encode false))) = .next e ∧
      exec .mixr (e.accept (encode .mixr)) = .next r ∧
      (ceil4 s.len.toNat < 2 → r.err = .shortBlock) ∧
      (2 ≤ ceil4 s.len.toNat → r.err = .ok ∧
        ∃ d, exec (.decode true) (r.accept (encode (.decode true))) = .next d ∧
          match wcDecode (xxteaRev (ksNormalize key) (wcEncode (s.data.bytes s.len.toNat) false)) true with
          | .ok m => d.err = .ok ∧ d.len = BitVec.ofNat 32 m.length ∧ d.data.bytes m.length = m
          | .error c => c = .malformedLength ∧ d.err = c ∧ d.len = 0)

/-! ### What a result may depend on -/

/-- A command's result is a function of the command and of the operand snapshot (R18, R220): two states with the same
parameters and the same snapshot get the same result applied to each. -/
def Obligations.ResultDependsOnSnapshotOnly : Prop :=
  ∀ (i : Instr) (s s' : State), s.params = s'.params → s.operands = s'.operands →
    ∃ r : Result, exec i s = .next (s.complete r) ∧ exec i s' = .next (s'.complete r)

/-- R214's exception: the pad bytes of the last plaintext word, and every later byte of DATA, have no influence on the
ciphertext. -/
def Obligations.CiphertextIgnoresBytesBeyondThePlaintext : Prop :=
  ∀ s s' : State, s.params = s'.params →
    s.operands.len = s'.operands.len → s.operands.keyLen = s'.operands.keyLen → s.operands.key = s'.operands.key →
    (∀ a < s.operands.len.toNat, s.operands.data.byte a = s'.operands.data.byte a) →
    ∃ t t', exec .encrypt s = .next t ∧ exec .encrypt s' = .next t' ∧ t.err = t'.err ∧
      (t.err = .ok → s.operands.len ≠ 0 → t.nkey = t'.nkey ∧ t.wcount = t'.wcount ∧ t.len = t'.len ∧
        t.data.bytes (4 * (ceil4 s.operands.len.toNat + 1)) = t'.data.bytes (4 * (ceil4 s.operands.len.toNat + 1)))

/-! ### The bus and the registers -/

/-- R41: while busy, a read of LEN, WCOUNT, NKEY0..3 or DATA answers a draw and changes no engine state; every other read
answers the location's exact value. Which free value the draw is, `Config.busyDraw` of the latched sequencing state and of
the count of draws, and that the count then advances, are the model's form of "any value" (log entry 6). -/
def Obligations.ReadsWhileBusy : Prop :=
  ∀ (s : State) (t : Loc), s.params.wf = true → s.busy = true → (t.nameable s.params.wmax = true ∨ t = .reserved) →
    (t = .len ∨ t = .wcount ∨ t = .nkey0 ∨ t = .nkey1 ∨ t = .nkey2 ∨ t = .nkey3 ∨ (∃ w, t = .data w) →
      ∃ l, s.latch = some l ∧
        s.memRead (s.addrOf t) = (.value (Config.busyDraw l.seq s.draws), { s with draws := s.draws + 1 })) ∧
    (t = .status ∨ t = .irqEn ∨ t = .keyLen ∨ t = .key0 ∨ t = .key1 ∨ t = .key2 ∨ t = .key3 ∨ t = .cap ∨ t = .cmd ∨
        t = .reserved →
      s.memRead (s.addrOf t) = (.value (s.readLoc t), s))

/-- R42: while busy, a write to CMD, KEY_LEN, KEY0..3, LEN, WCOUNT or DATA is dropped and sets WERR; writes to STATUS and
IRQ_EN take effect; writes to read-only and reserved offsets are ignored. -/
def Obligations.WritesWhileBusy : Prop :=
  ∀ (s : State) (t : Loc) (v : Word), s.params.wf = true → s.busy = true →
    (t.nameable s.params.wmax = true ∨ t = .reserved) →
    (t = .cmd ∨ t = .keyLen ∨ t = .key0 ∨ t = .key1 ∨ t = .key2 ∨ t = .key3 ∨ t = .len ∨ t = .wcount ∨
        (∃ w, t = .data w) →
      s.memWrite (s.addrOf t) v = (.okay, { s with werr := true })) ∧
    (t = .status → s.memWrite (s.addrOf t) v = (.okay, s.writeStatus v)) ∧
    (t = .irqEn → s.memWrite (s.addrOf t) v = (.okay, s.writeIrqEn v)) ∧
    (t = .nkey0 ∨ t = .nkey1 ∨ t = .nkey2 ∨ t = .nkey3 ∨ t = .cap ∨ t = .reserved →
      s.memWrite (s.addrOf t) v = (.okay, s))

/-- A read/write location of an idle engine reads back what was written, and no other location changes its value
(R23, R31, R32, R34, R35, R38, R62). -/
def Obligations.IdleReadAfterWrite : Prop :=
  ∀ (s : State) (t : Loc) (v : Word), s.params.wf = true → s.busy = false → t.nameable s.params.wmax = true →
    (t = .keyLen ∨ t = .key0 ∨ t = .key1 ∨ t = .key2 ∨ t = .key3 ∨ t = .len ∨ t = .wcount ∨ (∃ w, t = .data w)) →
    ∃ s', s.memWrite (s.addrOf t) v = (.okay, s') ∧
      s'.memRead (s.addrOf t) = (.value v, s') ∧
      ∀ u : Loc, u ≠ t → u.nameable s.params.wmax = true →
        s'.memRead (s.addrOf u) = (.value (s.readLoc u), s')

/-- R36 and R37: CAP reads WMAX at all times, reserved offsets read 0, and writes to them change nothing, busy or not. With
them the read of CMD (R24: 0, with no effect, busy or not) and NKEY0..3 (R33): an idle read of NKEYi answers the i-th word
of the normalised key with no effect, and a write changes nothing, busy or not. -/
def Obligations.ReadOnlyAndReservedLocations : Prop :=
  (∀ (s : State) (v : Word), s.params.wf = true →
    s.memRead (s.addrOf .cap) = (.value (BitVec.ofNat 32 s.params.wmax), s) ∧
    s.memWrite (s.addrOf .cap) v = (.okay, s)) ∧
  (∀ (s : State) (off : Nat) (v : Word), s.params.wf = true → 0x03C ≤ off → off ≤ 0xFFC → off % 4 = 0 →
    s.memRead (s.params.base + off) = (.value 0, s) ∧ s.memWrite (s.params.base + off) v = (.okay, s)) ∧
  (∀ (s : State) (t : Loc) (v : Word), s.params.wf = true →
    (t = .nkey0 ∨ t = .nkey1 ∨ t = .nkey2 ∨ t = .nkey3) → s.memWrite (s.addrOf t) v = (.okay, s)) ∧
  (∀ s : State, s.params.wf = true → s.memRead (s.addrOf .cmd) = (.value 0, s)) ∧
  (∀ s : State, s.params.wf = true → s.busy = false →
    s.memRead (s.addrOf .nkey0) = (.value s.nkey.w0, s) ∧ s.memRead (s.addrOf .nkey1) = (.value s.nkey.w1, s) ∧
    s.memRead (s.addrOf .nkey2) = (.value s.nkey.w2, s) ∧ s.memRead (s.addrOf .nkey3) = (.value s.nkey.w3, s))

/-- R54: a misaligned access in the region gets an ERROR response, reads as 0 and changes nothing. -/
def Obligations.MisalignedAccessIsABusError : Prop :=
  ∀ (s : State) (addr : Nat) (v : Word), s.inRegion addr = true → addr % 4 ≠ 0 →
    s.memRead addr = (.error, s) ∧ s.memWrite addr v = (.error, s) ∧ Response.error.data = 0

/-- The region is `[BASE, BASE + 0x1000 + 4·WMAX)` (R51). That an access outside it is answered `elsewhere` and changes
nothing in the engine is the model's choice (log entry 11). -/
def Obligations.AccessOutsideTheRegionDoesNotReachTheEngine : Prop :=
  ∀ (s : State) (addr : Nat) (v : Word),
    (s.inRegion addr = true ↔ s.params.base ≤ addr ∧ addr < s.params.base + 0x1000 + 4 * s.params.wmax) ∧
    (s.inRegion addr = false → s.memRead addr = (.elsewhere, s) ∧ s.memWrite addr v = (.elsewhere, s))

/-- R25: the fields of STATUS as a read answers them, write-1-to-clear of DONE and WERR, busy or not, and the reset value. -/
def Obligations.StatusRegister : Prop :=
  ∀ (s : State) (v : Word), s.params.wf = true →
    s.memRead (s.addrOf .status) = (.value s.statusWord, s) ∧
    (∀ i < 32, s.statusWord.getLsbD i =
      if i = 0 then s.busy else if i = 1 then s.done
      else if 4 ≤ i ∧ i ≤ 6 then s.err.bits.getLsbD (i - 4)
      else if i = 8 then s.werr else false) ∧
    s.memWrite (s.addrOf .status) v =
      (.okay, { s with done := s.done && !v.getLsbD 1, werr := s.werr && !v.getLsbD 8 }) ∧
    State.reset.statusWord = 0

/-- R30: IE is bit 0 of IRQ_EN, the other bits read 0 and ignore writes, busy or not; IE is 0 at reset and enables the
interrupt output. -/
def Obligations.InterruptEnableRegister : Prop :=
  ∀ (s : State) (v : Word), s.params.wf = true →
    (∃ x, s.memRead (s.addrOf .irqEn) = (.value x, s) ∧ x.getLsbD 0 = s.ie ∧ ∀ i, 1 ≤ i → x.getLsbD i = false) ∧
    s.memWrite (s.addrOf .irqEn) v = (.okay, { s with ie := v.getLsbD 0 }) ∧
    State.reset.ie = false ∧ (s.irq = true ↔ s.ie = true ∧ s.done = true)

/-- R184: a write to CMD of an idle engine accepts any word in one step. (The hidden sequencing state and the count of
draws are the model's: log entries 6 and 7.) -/
def Obligations.AcceptanceLatchesTheSnapshot : Prop :=
  ∀ (s : State) (c : Word), s.params.wf = true → s.busy = false →
    ∃ t l, s.memWrite (s.addrOf .cmd) c = (.okay, t) ∧ t.latch = some l ∧ l.word = c ∧ l.ops = s.liveOperands ∧
      t.busy = true ∧ t.irq = false ∧
      t = { s with latch := some l, done := false, draws := t.draws }

/-- R189 and R190: a completion, success or error, raises DONE and drives irq with IE alone; irq falls when the host
clears DONE, masks it by IE without clearing DONE, or starts the next command. -/
def Obligations.InterruptFollowsCompletion : Prop :=
  (∀ (i : Instr) (s : State), ∃ t, exec i s = .next t ∧ t.done = true ∧ t.irq = s.ie) ∧
  (∀ (c : Word) (s : State), legalWord c = false → ∃ t, execWord c s = .next t ∧ t.done = true ∧ t.irq = s.ie) ∧
  (∀ (s : State) (v : Word), v.getLsbD 1 = true → (s.writeStatus v).irq = false) ∧
  (∀ (s : State) (v : Word), v.getLsbD 0 = false → (s.writeIrqEn v).irq = false ∧ (s.writeIrqEn v).done = s.done) ∧
  (∀ (s : State) (c : Word), (s.accept c).irq = false)

/-! ### Reset -/

/-- R210: one reset step, in any state, gives every register its reset value, empties the latch with no completion and
draws DATA anew. That the draws are made byte by byte, under the number of the reset, is the model's (log entry 5), and so
is what a reset keeps, the parameters among it (log entry 13). -/
def Obligations.ResetStep : Prop :=
  ∀ s : State, s.nextTurn = .reset → ∃ t, step s = .next t ∧
    t.busy = false ∧ t.done = false ∧ t.err = .ok ∧ t.werr = false ∧ t.ie = false ∧ t.irq = false ∧
    t.keyLen = 0 ∧ t.key = Key4.zero ∧ t.nkey = Key4.zero ∧ t.len = 0 ∧ t.wcount = 0 ∧ t.latch = none ∧
    t.params = s.params ∧ (∀ i, t.data.byte i = Config.resetByte (s.data.epoch + 1) i)

/-- The "reset" column of 10_state.md R23, location by location: what each register reads right after reset (R43). -/
def Sys2Proof.resetReads : List (Loc × Word) :=
  [(.cmd, 0), (.status, 0), (.irqEn, 0), (.keyLen, 0), (.key0, 0), (.key1, 0), (.key2, 0), (.key3, 0),
   (.nkey0, 0), (.nkey1, 0), (.nkey2, 0), (.nkey3, 0), (.len, 0), (.wcount, 0), (.cap, BitVec.ofNat 32 Config.WMAX)]

/-- R211 and R43: what a read of every register answers right after reset, and what the state holds there; R212: what each
command then gives. That DATA holds the free values `Config.resetByte`, byte by byte, is the model's form of "unspecified"
(log entry 5); the number of the reset they are drawn under is left as it stands in the state. -/
def Obligations.StateAfterReset : Prop :=
  (∀ r ∈ resetReads, State.reset.memRead (State.reset.addrOf r.1) = (.value r.2, State.reset)) ∧
  (State.reset.statusWord = 0 ∧ State.reset.irqEnWord = 0 ∧ State.reset.irq = false ∧ State.reset.keyLen = 0 ∧
    State.reset.key = Key4.zero ∧ State.reset.nkey = Key4.zero ∧ State.reset.len = 0 ∧ State.reset.wcount = 0 ∧
    State.reset.readLoc .cap = BitVec.ofNat 32 Config.WMAX ∧ State.reset.latch = none) ∧
  (∀ i, State.reset.data.byte i = Config.resetByte State.reset.data.epoch i) ∧
  (∀ w < Config.WMAX,
    let draw := Config.resetByte State.reset.data.epoch
    State.reset.memRead (State.reset.addrOf (.data w)) =
      (.value (wordOf (draw (4 * w)) (draw (4 * w + 1)) (draw (4 * w + 2)) (draw (4 * w + 3))), State.reset)) ∧
  (∀ i : Instr, ∃ t, exec i (State.reset.accept (encode i)) = .next t ∧ t.len = 0 ∧ t.wcount = 0 ∧
    t.err = match i with
      | .keynorm => .emptyKey
      | .mixf | .mixr => .shortBlock
      | .nop | .encrypt | .decrypt | .encode _ | .decode _ => .ok)

/-! ### The machine -/

/-- The invariant holds at reset. -/
def Obligations.InvariantAtReset : Prop := State.reset.inv = true

/-- Every step of every agent keeps the invariant: the parameters meet R7, DATA is canonical and inside its window
(R38), DONE is never 1 while BUSY is 1 (R27), and the operands of a running command are frozen (R220). -/
def Obligations.StepKeepsInvariant : Prop :=
  ∀ s t : State, s.inv = true → step s = .next t → t.inv = true

/-- When it is the sequencer's turn and the latched word decodes to a command, the step is that command's meaning on
the state with the turn taken off the schedule. -/
def Obligations.StepRunsTheLatchedCommand : Prop :=
  ∀ (s : State) (l : Latch) (i : Instr), s.nextTurn = .complete → s.latch = some l → decode l.word = .ok i →
    step s = exec i s.popTurn

/-- Nothing stops the machine: in every state every agent's step has a next state. The spec does not say so in one
sentence; it is deduced (log entry 14) from errors being codes (R180), a misaligned access a bus response (R54) and there
being no trap (R191). That a turn whose agent has nothing to do has a next state too is the model's (log entry 4). -/
def Obligations.StepAlwaysAnswers : Prop :=
  ∀ s : State, ∃ t, step s = .next t

/-- R26: BUSY rises only by acceptance, a host write to CMD of an idle engine, and falls only by that command's
completion step (or by reset, R210). -/
def Obligations.BusyFollowsAcceptanceAndCompletion : Prop :=
  ∀ s t : State, s.params.wf = true → step s = .next t →
    (s.busy = false → t.busy = true → s.nextTurn = .host ∧
      ∃ c rest l, s.host = .write (s.addrOf .cmd) c :: rest ∧ t.latch = some l ∧ l.word = c) ∧
    (s.busy = true → t.busy = false → s.nextTurn = .complete ∨ s.nextTurn = .reset)

/-- R123: NKEY changes only in a completion of KEYNORM, ENCRYPT or DECRYPT on its successful path, which for DECRYPT
includes MALFORMED_LENGTH (R172), and then to the normalised key of that command's snapshot; or by reset (R210). -/
def Obligations.NkeyIsWrittenByKeyCommandsOnly : Prop :=
  ∀ s t : State, step s = .next t → t.nkey ≠ s.nkey →
    (s.nextTurn = .complete ∧ ∃ l i, s.latch = some l ∧ decode l.word = .ok i ∧
      (i = .keynorm ∨ i = .encrypt ∨ i = .decrypt) ∧
      (t.err = .ok ∨ (i = .decrypt ∧ t.err = .malformedLength)) ∧
      l.ops.keyLen ≠ 0 ∧ t.nkey = normalizedKey l.ops) ∨
    s.nextTurn = .reset

/-- R28 and R29: ERR changes only in a completion step (or by reset); WERR rises only by a host write that is dropped
while busy, and falls only by the host writing 1 to bit 8 of STATUS (or by reset). -/
def Obligations.ErrAndWerrWriters : Prop :=
  ∀ s t : State, s.params.wf = true → step s = .next t →
    (t.err ≠ s.err → (s.nextTurn = .complete ∧ s.busy = true) ∨ s.nextTurn = .reset) ∧
    (s.werr = false → t.werr = true → s.nextTurn = .host ∧ s.busy = true ∧
      ∃ addr v rest, s.host = .write addr v :: rest ∧ s.inRegion addr = true ∧
        frozenLoc (locAt (addr - s.params.base)) = true) ∧
    (s.werr = true → t.werr = false → s.nextTurn = .reset ∨
      (s.nextTurn = .host ∧ ∃ v rest, s.host = .write (s.addrOf .status) v :: rest ∧ v.getLsbD 8 = true))

/-- R220 on the machine: while a command is in flight no host step changes the latch or an operand, so a completion
taken after a host step gives the same NKEY, DATA, WCOUNT, LEN and code as one taken before it. -/
def Obligations.HostCannotReachARunningCommand : Prop :=
  ∀ s : State, s.busy = true →
    s.hostStep.latch = s.latch ∧ s.hostStep.liveOperands = s.liveOperands ∧
    ∃ a b, s.completeStep = .next a ∧ s.hostStep.completeStep = .next b ∧
      a.liveOperands = b.liveOperands ∧ a.err = b.err ∧ a.done = b.done

/-- R222: a command in flight ends, whatever the agents do: within one step more than the schedule is long, the engine
is idle. (Fairness is the finiteness of the schedule, log entry 4.) -/
def Obligations.EveryAcceptedCommandEnds : Prop :=
  ∀ s : State, s.busy = true → ∃ n t, n ≤ s.turns.length + 1 ∧ Host.Core.run core n s = .next t ∧ t.busy = false

/-! ### Host scripts -/

/-- R80, WAIT: the host's poll reads STATUS, and the line is over exactly when the BUSY it read is 0. -/
def Obligations.WaitPollsUntilIdle : Prop :=
  ∀ (s : State) (rest : List HostOp), s.params.wf = true → s.host = .wait :: rest →
    s.hostStep.trace = .value s.statusWord :: s.trace ∧
    (s.busy = true → s.hostStep.host = .wait :: rest) ∧
    (s.busy = false → s.hostStep.host = rest) ∧
    s.hostStep = { s with host := s.hostStep.host, trace := s.hostStep.trace }

/-- R80 and R55, WRB and WRK: on an idle engine the lines of WRB place the bytes at word `w` and zero the rest of the
last word, and the lines of WRK present the key. -/
def Obligations.ScriptsPlaceBytesAndKeys : Prop :=
  (∀ (s : State) (w : Nat) (bytes : List Byte), s.params.wf = true → s.latch = none →
    (ScriptLine.wrb w bytes).wf s.params.wmax = true → s.host = expandLine s.params.base (.wrb w bytes) →
    ∃ t, t = Nat.repeat State.hostStep s.host.length s ∧ t.host = [] ∧
      ∀ a, t.data.byte a =
        if 4 * w ≤ a ∧ a < 4 * w + 4 * ceil4 bytes.length then bytes.getD (a - 4 * w) 0 else s.data.byte a) ∧
  (∀ (s : State) (key : List Byte), s.params.wf = true → s.latch = none →
    (ScriptLine.wrk key).wf s.params.wmax = true → s.host = expandLine s.params.base (.wrk key) →
    ∃ t, t = Nat.repeat State.hostStep s.host.length s ∧ t.host = [] ∧ t.liveOperands.presentsKey key)
end

