-- ==== Sys2Proof/Laws/Bytes.lean ====
section
/-! SUPPORT. Byte order: packing and unpacking undo each other (20_memory.md R55). -/

namespace Sys2Proof.Machine

variable (a b c d : Byte)

@[simp] theorem byteOf_wordOf_zero : byteOf (wordOf a b c d) 0 = a := by
  apply BitVec.eq_of_getLsbD_eq
  intro i hi
  simp only [byteOf, wordOf, BitVec.getLsbD_extractLsb', BitVec.getLsbD_append]
  simp [hi]

@[simp] theorem byteOf_wordOf_one : byteOf (wordOf a b c d) 1 = b := by
  apply BitVec.eq_of_getLsbD_eq
  intro i hi
  have h : ¬ 8 + i < 8 := by omega
  simp only [byteOf, wordOf, BitVec.getLsbD_extractLsb', BitVec.getLsbD_append]
  simp [hi, h]

@[simp] theorem byteOf_wordOf_two : byteOf (wordOf a b c d) 2 = c := by
  apply BitVec.eq_of_getLsbD_eq
  intro i hi
  have h : ¬ 16 + i < 8 := by omega
  have h' : ¬ 16 + i - 8 < 8 := by omega
  have e : 16 + i - 8 - 8 = i := by omega
  simp only [byteOf, wordOf, BitVec.getLsbD_extractLsb', BitVec.getLsbD_append]
  simp [hi, h, h', e]

@[simp] theorem byteOf_wordOf_three : byteOf (wordOf a b c d) 3 = d := by
  apply BitVec.eq_of_getLsbD_eq
  intro i hi
  have h : ¬ 24 + i < 8 := by omega
  have h' : ¬ 24 + i - 8 < 8 := by omega
  have h'' : ¬ 24 + i - 8 - 8 < 8 := by omega
  have e : 24 + i - 8 - 8 - 8 = i := by omega
  simp only [byteOf, wordOf, BitVec.getLsbD_extractLsb', BitVec.getLsbD_append]
  simp [hi, h, h', h'', e]

/-- A word is the packing of its own four bytes. -/
@[simp] theorem wordOf_byteOf (w : Word) : wordOf (byteOf w 0) (byteOf w 1) (byteOf w 2) (byteOf w 3) = w := by
  apply BitVec.eq_of_getLsbD_eq
  intro i hi
  simp only [byteOf, wordOf, BitVec.getLsbD_extractLsb', BitVec.getLsbD_append]
  by_cases h1 : i < 8
  · simp [h1]
  · by_cases h2 : i - 8 < 8
    · simp [h1, h2, show 8 + (i - 8) = i by omega]
    · by_cases h3 : i - 8 - 8 < 8
      · simp [h1, h2, h3, show 16 + (i - 8 - 8) = i by omega]
      · simp [h1, h2, h3, show 24 + (i - 8 - 8 - 8) = i by omega, show i - 8 - 8 - 8 < 8 by omega]

@[simp] theorem wordBytes_wordOf : wordBytes (wordOf a b c d) = [a, b, c, d] := by simp [wordBytes]

@[simp] theorem length_wordBytes (w : Word) : (wordBytes w).length = 4 := rfl

@[simp] theorem unpackWords_nil : unpackWords [] = [] := rfl

@[simp] theorem unpackWords_cons (w : Word) (ws : List Word) : unpackWords (w :: ws) = wordBytes w ++ unpackWords ws :=
  rfl

@[simp] theorem length_unpackWords (ws : List Word) : (unpackWords ws).length = 4 * ws.length := by
  induction ws with
  | nil => rfl
  | cons w ws ih => simp [ih]; omega

@[simp] theorem length_packWords (bs : List Byte) : (packWords bs).length = ceil4 bs.length := by
  induction bs using packWords.induct with
  | case1 => rfl
  | case2 => simp [packWords, ceil4]
  | case3 => simp [packWords, ceil4]
  | case4 => simp [packWords, ceil4]
  | case5 a b c d rest ih => simp [packWords, ih, ceil4]; omega

/-- Unpacking a packed byte string gives it back, followed by its zero pad bytes (40_word_codec.md R113). -/
theorem unpackWords_packWords (bs : List Byte) :
    unpackWords (packWords bs) = bs ++ List.replicate (4 * ceil4 bs.length - bs.length) 0 := by
  induction bs using packWords.induct with
  | case1 => rfl
  | case2 => simp [packWords, ceil4]
  | case3 => simp [packWords, ceil4]
  | case4 => simp [packWords, ceil4]
  | case5 a b c d rest ih =>
    have e : 4 * ceil4 (a :: b :: c :: d :: rest).length - (a :: b :: c :: d :: rest).length
        = 4 * ceil4 rest.length - rest.length := by simp [ceil4]; omega
    rw [e]
    simp [packWords, ih]

/-- Packing the bytes of a word list gives the list back. -/
@[simp] theorem packWords_unpackWords (ws : List Word) : packWords (unpackWords ws) = ws := by
  induction ws with
  | nil => rfl
  | cons w ws ih => simp [wordBytes, packWords, ih]

@[simp] theorem byteOf_zero (k : Nat) : byteOf 0#32 k = 0#8 := by simp [byteOf]

/-- Byte `k` of word `j` of a packed byte string is byte `4j + k` of the string, or a zero past its end. -/
theorem byteOf_packWords (bs : List Byte) (j k : Nat) (hk : k < 4) :
    byteOf ((packWords bs).getD j 0) k = bs.getD (4 * j + k) 0 := by
  have cases4 : k = 0 ∨ k = 1 ∨ k = 2 ∨ k = 3 := by omega
  induction bs using packWords.induct generalizing j with
  | case1 => simp [packWords]
  | case2 a =>
    cases j with
    | zero => rcases cases4 with rfl | rfl | rfl | rfl <;> simp [packWords]
    | succ j => simp [packWords, show 4 * (j + 1) + k = (4 * j + k + 3) + 1 by omega]
  | case3 a b =>
    cases j with
    | zero => rcases cases4 with rfl | rfl | rfl | rfl <;> simp [packWords]
    | succ j => simp [packWords, show 4 * (j + 1) + k = (4 * j + k + 2) + 1 + 1 by omega]
  | case4 a b c =>
    cases j with
    | zero => rcases cases4 with rfl | rfl | rfl | rfl <;> simp [packWords]
    | succ j => simp [packWords, show 4 * (j + 1) + k = (4 * j + k + 1) + 1 + 1 + 1 by omega]
  | case5 a b c d rest ih =>
    cases j with
    | zero => rcases cases4 with rfl | rfl | rfl | rfl <;> simp [packWords]
    | succ j =>
      have h := ih j
      simp only [List.getD_eq_getElem?_getD] at h
      simpa [packWords, show 4 * (j + 1) + k = (4 * j + k) + 1 + 1 + 1 + 1 by omega] using h

end Sys2Proof.Machine
end

