-- ==== Sys2Proof/Laws/Memory.lean ====
section
/-! SUPPORT. The byte store: a read after a write, what a write leaves alone, and the canonical form, which every
operation keeps. -/

namespace Sys2Proof.Machine

/-! ### The list of cells -/

theorem Memory.find_write (m : Memory) (i j : Nat) (v : Byte) :
    Memory.find (Memory.write m i v) j = if i = j then some v else Memory.find m j := by
  induction m with
  | nil => simp [Memory.write, Memory.find]
  | cons c m ih =>
    obtain ⟨a, b⟩ := c
    by_cases h1 : i < a
    · simp [Memory.write, Memory.find, h1]
    · by_cases h2 : i = a
      · subst h2
        by_cases h3 : i = j <;> simp [Memory.write, Memory.find, h3]
      · by_cases h3 : a = j
        · subst h3
          simp [Memory.write, Memory.find, h1, h2]
        · simp [Memory.write, Memory.find, h1, h2, h3, ih]

theorem Memory.risesFrom_mono (m : Memory) {lo lo' : Nat} (h : lo' ≤ lo) (hm : Memory.risesFrom lo m = true) :
    Memory.risesFrom lo' m = true := by
  cases m with
  | nil => rfl
  | cons c m =>
    simp only [Memory.risesFrom, Bool.and_eq_true, decide_eq_true_eq] at hm ⊢
    exact ⟨by omega, hm.2⟩

theorem Memory.risesFrom_write (m : Memory) {lo i : Nat} (v : Byte) (hi : lo ≤ i)
    (hm : Memory.risesFrom lo m = true) : Memory.risesFrom lo (Memory.write m i v) = true := by
  induction m generalizing lo with
  | nil => simp [Memory.write, Memory.risesFrom, hi]
  | cons c m ih =>
    obtain ⟨a, b⟩ := c
    simp only [Memory.risesFrom, Bool.and_eq_true, decide_eq_true_eq] at hm
    by_cases h1 : i < a
    · simp [Memory.write, h1, Memory.risesFrom, hi, hm.2]
    · by_cases h2 : i = a
      · subst h2
        simp [Memory.write, Memory.risesFrom, hi, hm.2]
      · simp only [Memory.write, h1, h2, if_false, Memory.risesFrom, Bool.and_eq_true, decide_eq_true_eq]
        exact ⟨hm.1, ih (by omega) hm.2⟩

/-- A write keeps the canonical form. -/
theorem Memory.wf_write (m : Memory) (i : Nat) (v : Byte) (hm : Memory.wf m = true) :
    Memory.wf (Memory.write m i v) = true :=
  Memory.risesFrom_write m v (Nat.zero_le i) hm

theorem Memory.mem_write {m : Memory} {i : Nat} {v : Byte} {c : Host.Cell} (h : c ∈ Memory.write m i v) :
    c = (i, v) ∨ c ∈ m := by
  induction m with
  | nil => simpa [Memory.write] using h
  | cons d m ih =>
    obtain ⟨a, b⟩ := d
    by_cases h1 : i < a
    · simpa [Memory.write, h1] using h
    · by_cases h2 : i = a
      · subst h2
        simp only [Memory.write, Nat.lt_irrefl, if_false, if_true, List.mem_cons] at h
        exact h.imp_right fun h => by simp [h]
      · simp only [Memory.write, h1, h2, if_false, List.mem_cons] at h
        rcases h with h | h
        · exact .inr (by simp [h])
        · exact (ih h).imp_right fun h => by simp [h]

/-! ### The data buffer -/

@[simp] theorem Data.writeByte_epoch (d : Data) (c : Host.Cell) : (d.writeByte c).epoch = d.epoch := rfl

@[simp] theorem Data.writeAll_nil (d : Data) : d.writeAll [] = d := rfl

@[simp] theorem Data.writeAll_cons (d : Data) (c : Host.Cell) (cs : List Host.Cell) :
    d.writeAll (c :: cs) = (d.writeByte c).writeAll cs := rfl

@[simp] theorem Data.writeAll_append (d : Data) (cs cs' : List Host.Cell) :
    d.writeAll (cs ++ cs') = (d.writeAll cs).writeAll cs' := by simp [Data.writeAll]

@[simp] theorem Data.writeAll_epoch (d : Data) (cs : List Host.Cell) : (d.writeAll cs).epoch = d.epoch := by
  induction cs generalizing d with
  | nil => rfl
  | cons c cs ih => simp [ih]

theorem Data.byte_writeByte (d : Data) (c : Host.Cell) (i : Nat) :
    (d.writeByte c).byte i = if c.1 = i then c.2 else d.byte i := by
  unfold Data.byte Data.writeByte
  simp only [Memory.find_write]
  split <;> rfl

/-- A byte no write of the list names keeps its value. -/
theorem Data.byte_writeAll_of_notMem (d : Data) (cs : List Host.Cell) {i : Nat} (h : ∀ c ∈ cs, c.1 ≠ i) :
    (d.writeAll cs).byte i = d.byte i := by
  induction cs generalizing d with
  | nil => rfl
  | cons c cs ih =>
    rw [Data.writeAll_cons, ih _ fun c' hc' => h c' (by simp [hc']), Data.byte_writeByte]
    simp [h c (by simp)]

/-- A byte the list writes, always to the same value, holds that value. -/
theorem Data.byte_writeAll_of_mem (d : Data) (cs : List Host.Cell) {i : Nat} {v : Byte}
    (hex : ∃ c ∈ cs, c.1 = i) (hall : ∀ c ∈ cs, c.1 = i → c.2 = v) : (d.writeAll cs).byte i = v := by
  induction cs generalizing d with
  | nil => simp at hex
  | cons c cs ih =>
    rw [Data.writeAll_cons]
    by_cases h : ∃ c' ∈ cs, c'.1 = i
    · exact ih _ h fun c' hc' => hall c' (by simp [hc'])
    · push Not at h
      obtain ⟨c', hc', hi⟩ := hex
      rcases List.mem_cons.1 hc' with rfl | hc'
      · rw [Data.byte_writeAll_of_notMem _ _ h, Data.byte_writeByte, if_pos hi]
        exact hall _ (by simp) hi
      · exact absurd hi (h _ hc')

theorem Data.wf_iff (wmax : Nat) (d : Data) :
    d.wf wmax = true ↔ Memory.wf d.cells = true ∧ ∀ c ∈ d.cells, c.1 < 4 * wmax := by
  simp [Data.wf]

/-- Writes inside the window keep the buffer's form. -/
theorem Data.wf_writeAll {wmax : Nat} (d : Data) (cs : List Host.Cell) (hd : d.wf wmax = true)
    (hcs : ∀ c ∈ cs, c.1 < 4 * wmax) : (d.writeAll cs).wf wmax = true := by
  induction cs generalizing d with
  | nil => exact hd
  | cons c cs ih =>
    refine ih _ ?_ fun c' hc' => hcs c' (by simp [hc'])
    rw [Data.wf_iff] at hd ⊢
    refine ⟨Memory.wf_write _ _ _ hd.1, fun c' hc' => ?_⟩
    rcases Memory.mem_write hc' with rfl | h
    · exact hcs c (by simp)
    · exact hd.2 _ h

@[simp] theorem Data.wf_empty (wmax epoch : Nat) : ({ cells := [], epoch := epoch } : Data).wf wmax = true := rfl

/-! ### Word writes -/

theorem mem_wordCells {w : Nat} {v : Word} {c : Host.Cell} (h : c ∈ wordCells w v) :
    c.1 / 4 = w ∧ c.2 = byteOf v (c.1 % 4) := by
  simp only [wordCells, List.mem_cons, List.not_mem_nil, or_false] at h
  rcases h with rfl | rfl | rfl | rfl <;> exact ⟨by dsimp only; omega, by dsimp only; congr 1; omega⟩

theorem exists_wordCells (v : Word) (i : Nat) : ∃ c ∈ wordCells (i / 4) v, c.1 = i := by
  have h : i % 4 = 0 ∨ i % 4 = 1 ∨ i % 4 = 2 ∨ i % 4 = 3 := by omega
  rcases h with h | h | h | h <;> simp [wordCells] <;> omega

/-- A write listed by `blockCells` goes to a word of the block and carries that word's byte. -/
theorem mem_blockCells {w : Nat} {vs : List Word} {c : Host.Cell} (h : c ∈ blockCells w vs) :
    w ≤ c.1 / 4 ∧ c.1 / 4 < w + vs.length ∧ c.2 = byteOf (vs.getD (c.1 / 4 - w) 0) (c.1 % 4) := by
  induction vs generalizing w with
  | nil => simp [blockCells] at h
  | cons v vs ih =>
    simp only [blockCells, List.mem_append] at h
    rcases h with h | h
    · obtain ⟨h1, h2⟩ := mem_wordCells h
      subst h1
      exact ⟨Nat.le_refl _, by simp, by simp [h2]⟩
    · obtain ⟨h1, h2, h3⟩ := ih h
      refine ⟨by omega, by simp; omega, ?_⟩
      rw [h3, show c.1 / 4 - w = (c.1 / 4 - (w + 1)) + 1 by omega]
      simp

theorem exists_blockCells {w : Nat} {vs : List Word} {i : Nat} (h1 : w ≤ i / 4) (h2 : i / 4 < w + vs.length) :
    ∃ c ∈ blockCells w vs, c.1 = i := by
  induction vs generalizing w with
  | nil => simp at h2; omega
  | cons v vs ih =>
    by_cases h : i / 4 = w
    · obtain ⟨c, hc, hi⟩ := exists_wordCells v i
      exact ⟨c, by simp only [blockCells, List.mem_append]; exact .inl (h ▸ hc), hi⟩
    · obtain ⟨c, hc, hi⟩ := ih (w := w + 1) (by omega) (by simp at h2; omega)
      exact ⟨c, by simp only [blockCells, List.mem_append]; exact .inr hc, hi⟩

/-- The byte view after `DATA[w..] <- vs`. -/
theorem Data.byte_writeAll_blockCells (d : Data) (w : Nat) (vs : List Word) (i : Nat) :
    (d.writeAll (blockCells w vs)).byte i
      = if w ≤ i / 4 ∧ i / 4 < w + vs.length then byteOf (vs.getD (i / 4 - w) 0) (i % 4) else d.byte i := by
  split
  · rename_i h
    exact Data.byte_writeAll_of_mem _ _ (exists_blockCells h.1 h.2) fun c hc hi => by
      rw [(mem_blockCells hc).2.2, hi]
  · rename_i h
    refine Data.byte_writeAll_of_notMem _ _ fun c hc hi => h ?_
    obtain ⟨h1, h2, -⟩ := mem_blockCells hc
    exact hi ▸ ⟨h1, h2⟩

/-- The word view after `DATA[w..] <- vs`. -/
theorem Data.word_writeAll_blockCells (d : Data) (w : Nat) (vs : List Word) (j : Nat) :
    (d.writeAll (blockCells w vs)).word j
      = if w ≤ j ∧ j < w + vs.length then vs.getD (j - w) 0 else d.word j := by
  have e0 : 4 * j / 4 = j := by omega
  have e1 : (4 * j + 1) / 4 = j := by omega
  have e2 : (4 * j + 2) / 4 = j := by omega
  have e3 : (4 * j + 3) / 4 = j := by omega
  have m0 : 4 * j % 4 = 0 := by omega
  have m1 : (4 * j + 1) % 4 = 1 := by omega
  have m2 : (4 * j + 2) % 4 = 2 := by omega
  have m3 : (4 * j + 3) % 4 = 3 := by omega
  simp only [Data.word, Data.byte_writeAll_blockCells, e0, e1, e2, e3, m0, m1, m2, m3]
  split <;> simp

@[simp] theorem Data.length_block (d : Data) (n : Nat) : (d.block n).length = n := by simp [Data.block]

@[simp] theorem Data.length_bytes (d : Data) (n : Nat) : (d.bytes n).length = n := by simp [Data.bytes]

/-- The block just written reads back. -/
theorem Data.block_writeAll_blockCells (d : Data) (vs : List Word) :
    (d.writeAll (blockCells 0 vs)).block vs.length = vs := by
  apply List.ext_getElem (by simp)
  intro j h1 h2
  simp [Data.block, Data.word_writeAll_blockCells, h2]

/-- `DATA[w] <- v` as a block of one word. -/
theorem wordCells_eq_blockCells (w : Nat) (v : Word) : wordCells w v = blockCells w [v] := by simp [blockCells]

/-! ### Pad bytes -/

theorem mem_padCells {l : Nat} {c : Host.Cell} : c ∈ padCells l ↔ l ≤ c.1 ∧ c.1 < 4 * ceil4 l ∧ c.2 = 0 := by
  obtain ⟨i, v⟩ := c
  simp only [padCells, List.mem_map, List.mem_range, Prod.mk.injEq]
  constructor
  · rintro ⟨j, hj, rfl, rfl⟩
    exact ⟨by omega, by omega, rfl⟩
  · rintro ⟨h1, h2, rfl⟩
    exact ⟨i - l, by omega, by omega, rfl⟩

/-- The byte view after the pad bytes are zeroed (40_word_codec.md R101). -/
theorem Data.byte_writeAll_padCells (d : Data) (l i : Nat) :
    (d.writeAll (padCells l)).byte i = if l ≤ i ∧ i < 4 * ceil4 l then 0 else d.byte i := by
  split
  · rename_i h
    exact Data.byte_writeAll_of_mem _ _ ⟨(i, 0), mem_padCells.2 ⟨h.1, h.2, rfl⟩, rfl⟩
      fun c hc _ => (mem_padCells.1 hc).2.2
  · rename_i h
    refine Data.byte_writeAll_of_notMem _ _ fun c hc hi => h ?_
    obtain ⟨h1, h2, -⟩ := mem_padCells.1 hc
    exact hi ▸ ⟨h1, h2⟩

/-! ### Bytes and words of the same store -/

/-- The words of the buffer, unpacked, are its bytes. -/
theorem Data.unpackWords_block (d : Data) (n : Nat) : unpackWords (d.block n) = d.bytes (4 * n) := by
  induction n with
  | zero => rfl
  | succ n ih =>
    have h1 : d.block (n + 1) = d.block n ++ [d.word n] := by simp [Data.block, List.range_succ]
    have h2 : d.bytes (4 * (n + 1)) = d.bytes (4 * n) ++ wordBytes (d.word n) := by
      simp [Data.bytes, Data.word, show 4 * (n + 1) = 4 * n + 1 + 1 + 1 + 1 by omega, List.range_succ]
    rw [h1, h2, ← ih]
    simp [unpackWords]

/-- The word view after `DATA[w] <- v`. -/
theorem Data.word_writeAll_wordCells (d : Data) (w : Nat) (v : Word) (j : Nat) :
    (d.writeAll (wordCells w v)).word j = if j = w then v else d.word j := by
  rw [wordCells_eq_blockCells, Data.word_writeAll_blockCells]
  by_cases h : j = w
  · simp [h]
  · rw [if_neg (by simp only [List.length_singleton]; omega), if_neg h]

end Sys2Proof.Machine
end

