-- ==== Sys2Proof/Laws/State.lean ====
section
/-! SUPPORT. What each update of State leaves in each field: one lemma per field per update, true by `rfl`. -/

namespace Sys2Proof.Machine

variable (s : State)

/-! ### accept -/

@[simp] theorem State.accept_params (c : Word) : (s.accept c).params = s.params := rfl
@[simp] theorem State.accept_keyLen (c : Word) : (s.accept c).keyLen = s.keyLen := rfl
@[simp] theorem State.accept_key (c : Word) : (s.accept c).key = s.key := rfl
@[simp] theorem State.accept_nkey (c : Word) : (s.accept c).nkey = s.nkey := rfl
@[simp] theorem State.accept_len (c : Word) : (s.accept c).len = s.len := rfl
@[simp] theorem State.accept_wcount (c : Word) : (s.accept c).wcount = s.wcount := rfl
@[simp] theorem State.accept_data (c : Word) : (s.accept c).data = s.data := rfl
@[simp] theorem State.accept_done (c : Word) : (s.accept c).done = false := rfl
@[simp] theorem State.accept_err (c : Word) : (s.accept c).err = s.err := rfl
@[simp] theorem State.accept_werr (c : Word) : (s.accept c).werr = s.werr := rfl
@[simp] theorem State.accept_ie (c : Word) : (s.accept c).ie = s.ie := rfl
@[simp] theorem State.accept_latch (c : Word) : (s.accept c).latch = some { word := c, ops := s.liveOperands, seq := Config.sequencing s.draws } := rfl
@[simp] theorem State.accept_draws (c : Word) : (s.accept c).draws = s.draws + 1 := rfl
@[simp] theorem State.accept_host (c : Word) : (s.accept c).host = s.host := rfl
@[simp] theorem State.accept_turns (c : Word) : (s.accept c).turns = s.turns := rfl
@[simp] theorem State.accept_trace (c : Word) : (s.accept c).trace = s.trace := rfl
@[simp] theorem State.accept_scriptFailed (c : Word) : (s.accept c).scriptFailed = s.scriptFailed := rfl

/-! ### complete -/

@[simp] theorem State.complete_params (r : Result) : (s.complete r).params = s.params := rfl
@[simp] theorem State.complete_keyLen (r : Result) : (s.complete r).keyLen = s.keyLen := rfl
@[simp] theorem State.complete_key (r : Result) : (s.complete r).key = s.key := rfl
@[simp] theorem State.complete_nkey (r : Result) : (s.complete r).nkey = r.nkey.getD s.nkey := rfl
@[simp] theorem State.complete_len (r : Result) : (s.complete r).len = r.len.getD s.len := rfl
@[simp] theorem State.complete_wcount (r : Result) : (s.complete r).wcount = r.wcount.getD s.wcount := rfl
@[simp] theorem State.complete_data (r : Result) : (s.complete r).data = s.data.writeAll r.writes := rfl
@[simp] theorem State.complete_done (r : Result) : (s.complete r).done = true := rfl
@[simp] theorem State.complete_err (r : Result) : (s.complete r).err = r.code := rfl
@[simp] theorem State.complete_werr (r : Result) : (s.complete r).werr = s.werr := rfl
@[simp] theorem State.complete_ie (r : Result) : (s.complete r).ie = s.ie := rfl
@[simp] theorem State.complete_latch (r : Result) : (s.complete r).latch = none := rfl
@[simp] theorem State.complete_draws (r : Result) : (s.complete r).draws = s.draws := rfl
@[simp] theorem State.complete_host (r : Result) : (s.complete r).host = s.host := rfl
@[simp] theorem State.complete_turns (r : Result) : (s.complete r).turns = s.turns := rfl
@[simp] theorem State.complete_trace (r : Result) : (s.complete r).trace = s.trace := rfl
@[simp] theorem State.complete_scriptFailed (r : Result) : (s.complete r).scriptFailed = s.scriptFailed := rfl

/-! ### writeStatus -/

@[simp] theorem State.writeStatus_params (v : Word) : (s.writeStatus v).params = s.params := rfl
@[simp] theorem State.writeStatus_keyLen (v : Word) : (s.writeStatus v).keyLen = s.keyLen := rfl
@[simp] theorem State.writeStatus_key (v : Word) : (s.writeStatus v).key = s.key := rfl
@[simp] theorem State.writeStatus_nkey (v : Word) : (s.writeStatus v).nkey = s.nkey := rfl
@[simp] theorem State.writeStatus_len (v : Word) : (s.writeStatus v).len = s.len := rfl
@[simp] theorem State.writeStatus_wcount (v : Word) : (s.writeStatus v).wcount = s.wcount := rfl
@[simp] theorem State.writeStatus_data (v : Word) : (s.writeStatus v).data = s.data := rfl
@[simp] theorem State.writeStatus_done (v : Word) : (s.writeStatus v).done = (s.done && !v.getLsbD 1) := rfl
@[simp] theorem State.writeStatus_err (v : Word) : (s.writeStatus v).err = s.err := rfl
@[simp] theorem State.writeStatus_werr (v : Word) : (s.writeStatus v).werr = (s.werr && !v.getLsbD 8) := rfl
@[simp] theorem State.writeStatus_ie (v : Word) : (s.writeStatus v).ie = s.ie := rfl
@[simp] theorem State.writeStatus_latch (v : Word) : (s.writeStatus v).latch = s.latch := rfl
@[simp] theorem State.writeStatus_draws (v : Word) : (s.writeStatus v).draws = s.draws := rfl
@[simp] theorem State.writeStatus_host (v : Word) : (s.writeStatus v).host = s.host := rfl
@[simp] theorem State.writeStatus_turns (v : Word) : (s.writeStatus v).turns = s.turns := rfl
@[simp] theorem State.writeStatus_trace (v : Word) : (s.writeStatus v).trace = s.trace := rfl
@[simp] theorem State.writeStatus_scriptFailed (v : Word) : (s.writeStatus v).scriptFailed = s.scriptFailed := rfl

/-! ### writeIrqEn -/

@[simp] theorem State.writeIrqEn_params (v : Word) : (s.writeIrqEn v).params = s.params := rfl
@[simp] theorem State.writeIrqEn_keyLen (v : Word) : (s.writeIrqEn v).keyLen = s.keyLen := rfl
@[simp] theorem State.writeIrqEn_key (v : Word) : (s.writeIrqEn v).key = s.key := rfl
@[simp] theorem State.writeIrqEn_nkey (v : Word) : (s.writeIrqEn v).nkey = s.nkey := rfl
@[simp] theorem State.writeIrqEn_len (v : Word) : (s.writeIrqEn v).len = s.len := rfl
@[simp] theorem State.writeIrqEn_wcount (v : Word) : (s.writeIrqEn v).wcount = s.wcount := rfl
@[simp] theorem State.writeIrqEn_data (v : Word) : (s.writeIrqEn v).data = s.data := rfl
@[simp] theorem State.writeIrqEn_done (v : Word) : (s.writeIrqEn v).done = s.done := rfl
@[simp] theorem State.writeIrqEn_err (v : Word) : (s.writeIrqEn v).err = s.err := rfl
@[simp] theorem State.writeIrqEn_werr (v : Word) : (s.writeIrqEn v).werr = s.werr := rfl
@[simp] theorem State.writeIrqEn_ie (v : Word) : (s.writeIrqEn v).ie = v.getLsbD 0 := rfl
@[simp] theorem State.writeIrqEn_latch (v : Word) : (s.writeIrqEn v).latch = s.latch := rfl
@[simp] theorem State.writeIrqEn_draws (v : Word) : (s.writeIrqEn v).draws = s.draws := rfl
@[simp] theorem State.writeIrqEn_host (v : Word) : (s.writeIrqEn v).host = s.host := rfl
@[simp] theorem State.writeIrqEn_turns (v : Word) : (s.writeIrqEn v).turns = s.turns := rfl
@[simp] theorem State.writeIrqEn_trace (v : Word) : (s.writeIrqEn v).trace = s.trace := rfl
@[simp] theorem State.writeIrqEn_scriptFailed (v : Word) : (s.writeIrqEn v).scriptFailed = s.scriptFailed := rfl

/-! ### record -/

@[simp] theorem State.record_params (r : Response) : (s.record r).params = s.params := rfl
@[simp] theorem State.record_keyLen (r : Response) : (s.record r).keyLen = s.keyLen := rfl
@[simp] theorem State.record_key (r : Response) : (s.record r).key = s.key := rfl
@[simp] theorem State.record_nkey (r : Response) : (s.record r).nkey = s.nkey := rfl
@[simp] theorem State.record_len (r : Response) : (s.record r).len = s.len := rfl
@[simp] theorem State.record_wcount (r : Response) : (s.record r).wcount = s.wcount := rfl
@[simp] theorem State.record_data (r : Response) : (s.record r).data = s.data := rfl
@[simp] theorem State.record_done (r : Response) : (s.record r).done = s.done := rfl
@[simp] theorem State.record_err (r : Response) : (s.record r).err = s.err := rfl
@[simp] theorem State.record_werr (r : Response) : (s.record r).werr = s.werr := rfl
@[simp] theorem State.record_ie (r : Response) : (s.record r).ie = s.ie := rfl
@[simp] theorem State.record_latch (r : Response) : (s.record r).latch = s.latch := rfl
@[simp] theorem State.record_draws (r : Response) : (s.record r).draws = s.draws := rfl
@[simp] theorem State.record_host (r : Response) : (s.record r).host = s.host := rfl
@[simp] theorem State.record_turns (r : Response) : (s.record r).turns = s.turns := rfl
@[simp] theorem State.record_trace (r : Response) : (s.record r).trace = r :: s.trace := rfl
@[simp] theorem State.record_scriptFailed (r : Response) : (s.record r).scriptFailed = s.scriptFailed := rfl

/-! ### popHost -/

@[simp] theorem State.popHost_params : (s.popHost).params = s.params := rfl
@[simp] theorem State.popHost_keyLen : (s.popHost).keyLen = s.keyLen := rfl
@[simp] theorem State.popHost_key : (s.popHost).key = s.key := rfl
@[simp] theorem State.popHost_nkey : (s.popHost).nkey = s.nkey := rfl
@[simp] theorem State.popHost_len : (s.popHost).len = s.len := rfl
@[simp] theorem State.popHost_wcount : (s.popHost).wcount = s.wcount := rfl
@[simp] theorem State.popHost_data : (s.popHost).data = s.data := rfl
@[simp] theorem State.popHost_done : (s.popHost).done = s.done := rfl
@[simp] theorem State.popHost_err : (s.popHost).err = s.err := rfl
@[simp] theorem State.popHost_werr : (s.popHost).werr = s.werr := rfl
@[simp] theorem State.popHost_ie : (s.popHost).ie = s.ie := rfl
@[simp] theorem State.popHost_latch : (s.popHost).latch = s.latch := rfl
@[simp] theorem State.popHost_draws : (s.popHost).draws = s.draws := rfl
@[simp] theorem State.popHost_host : (s.popHost).host = s.host.tail := rfl
@[simp] theorem State.popHost_turns : (s.popHost).turns = s.turns := rfl
@[simp] theorem State.popHost_trace : (s.popHost).trace = s.trace := rfl
@[simp] theorem State.popHost_scriptFailed : (s.popHost).scriptFailed = s.scriptFailed := rfl

/-! ### popTurn -/

@[simp] theorem State.popTurn_params : (s.popTurn).params = s.params := rfl
@[simp] theorem State.popTurn_keyLen : (s.popTurn).keyLen = s.keyLen := rfl
@[simp] theorem State.popTurn_key : (s.popTurn).key = s.key := rfl
@[simp] theorem State.popTurn_nkey : (s.popTurn).nkey = s.nkey := rfl
@[simp] theorem State.popTurn_len : (s.popTurn).len = s.len := rfl
@[simp] theorem State.popTurn_wcount : (s.popTurn).wcount = s.wcount := rfl
@[simp] theorem State.popTurn_data : (s.popTurn).data = s.data := rfl
@[simp] theorem State.popTurn_done : (s.popTurn).done = s.done := rfl
@[simp] theorem State.popTurn_err : (s.popTurn).err = s.err := rfl
@[simp] theorem State.popTurn_werr : (s.popTurn).werr = s.werr := rfl
@[simp] theorem State.popTurn_ie : (s.popTurn).ie = s.ie := rfl
@[simp] theorem State.popTurn_latch : (s.popTurn).latch = s.latch := rfl
@[simp] theorem State.popTurn_draws : (s.popTurn).draws = s.draws := rfl
@[simp] theorem State.popTurn_host : (s.popTurn).host = s.host := rfl
@[simp] theorem State.popTurn_turns : (s.popTurn).turns = s.turns.tail := rfl
@[simp] theorem State.popTurn_trace : (s.popTurn).trace = s.trace := rfl
@[simp] theorem State.popTurn_scriptFailed : (s.popTurn).scriptFailed = s.scriptFailed := rfl

/-! ### failScript -/

@[simp] theorem State.failScript_params : (s.failScript).params = s.params := rfl
@[simp] theorem State.failScript_keyLen : (s.failScript).keyLen = s.keyLen := rfl
@[simp] theorem State.failScript_key : (s.failScript).key = s.key := rfl
@[simp] theorem State.failScript_nkey : (s.failScript).nkey = s.nkey := rfl
@[simp] theorem State.failScript_len : (s.failScript).len = s.len := rfl
@[simp] theorem State.failScript_wcount : (s.failScript).wcount = s.wcount := rfl
@[simp] theorem State.failScript_data : (s.failScript).data = s.data := rfl
@[simp] theorem State.failScript_done : (s.failScript).done = s.done := rfl
@[simp] theorem State.failScript_err : (s.failScript).err = s.err := rfl
@[simp] theorem State.failScript_werr : (s.failScript).werr = s.werr := rfl
@[simp] theorem State.failScript_ie : (s.failScript).ie = s.ie := rfl
@[simp] theorem State.failScript_latch : (s.failScript).latch = s.latch := rfl
@[simp] theorem State.failScript_draws : (s.failScript).draws = s.draws := rfl
@[simp] theorem State.failScript_host : (s.failScript).host = [] := rfl
@[simp] theorem State.failScript_turns : (s.failScript).turns = s.turns := rfl
@[simp] theorem State.failScript_trace : (s.failScript).trace = s.trace := rfl
@[simp] theorem State.failScript_scriptFailed : (s.failScript).scriptFailed = true := rfl

/-! ### resetEngine -/

@[simp] theorem State.resetEngine_params : s.resetEngine.params = s.params := rfl
@[simp] theorem State.resetEngine_keyLen : s.resetEngine.keyLen = 0 := rfl
@[simp] theorem State.resetEngine_key : s.resetEngine.key = Key4.zero := rfl
@[simp] theorem State.resetEngine_nkey : s.resetEngine.nkey = Key4.zero := rfl
@[simp] theorem State.resetEngine_len : s.resetEngine.len = 0 := rfl
@[simp] theorem State.resetEngine_wcount : s.resetEngine.wcount = 0 := rfl
@[simp] theorem State.resetEngine_data : s.resetEngine.data = { cells := [], epoch := s.data.epoch + 1 } := rfl
@[simp] theorem State.resetEngine_done : s.resetEngine.done = false := rfl
@[simp] theorem State.resetEngine_err : s.resetEngine.err = .ok := rfl
@[simp] theorem State.resetEngine_werr : s.resetEngine.werr = false := rfl
@[simp] theorem State.resetEngine_ie : s.resetEngine.ie = false := rfl
@[simp] theorem State.resetEngine_latch : s.resetEngine.latch = none := rfl
@[simp] theorem State.resetEngine_draws : s.resetEngine.draws = s.draws := rfl
@[simp] theorem State.resetEngine_host : s.resetEngine.host = s.host := rfl
@[simp] theorem State.resetEngine_turns : s.resetEngine.turns = s.turns := rfl
@[simp] theorem State.resetEngine_trace : s.resetEngine.trace = s.trace := rfl
@[simp] theorem State.resetEngine_scriptFailed : s.resetEngine.scriptFailed = s.scriptFailed := rfl

/-! ### work: only the hidden sequencing state and the count of draws move -/

@[simp] theorem State.work_params : s.work.params = s.params := by unfold State.work; split <;> rfl
@[simp] theorem State.work_keyLen : s.work.keyLen = s.keyLen := by unfold State.work; split <;> rfl
@[simp] theorem State.work_key : s.work.key = s.key := by unfold State.work; split <;> rfl
@[simp] theorem State.work_nkey : s.work.nkey = s.nkey := by unfold State.work; split <;> rfl
@[simp] theorem State.work_len : s.work.len = s.len := by unfold State.work; split <;> rfl
@[simp] theorem State.work_wcount : s.work.wcount = s.wcount := by unfold State.work; split <;> rfl
@[simp] theorem State.work_data : s.work.data = s.data := by unfold State.work; split <;> rfl
@[simp] theorem State.work_done : s.work.done = s.done := by unfold State.work; split <;> rfl
@[simp] theorem State.work_err : s.work.err = s.err := by unfold State.work; split <;> rfl
@[simp] theorem State.work_werr : s.work.werr = s.werr := by unfold State.work; split <;> rfl
@[simp] theorem State.work_ie : s.work.ie = s.ie := by unfold State.work; split <;> rfl
@[simp] theorem State.work_host : s.work.host = s.host := by unfold State.work; split <;> rfl
@[simp] theorem State.work_turns : s.work.turns = s.turns := by unfold State.work; split <;> rfl
@[simp] theorem State.work_trace : s.work.trace = s.trace := by unfold State.work; split <;> rfl
@[simp] theorem State.work_scriptFailed : s.work.scriptFailed = s.scriptFailed := by unfold State.work; split <;> rfl

/-! ### Views of the state after an update -/

@[simp] theorem State.busy_accept (c : Word) : (s.accept c).busy = true := rfl
@[simp] theorem State.busy_complete (r : Result) : (s.complete r).busy = false := rfl
@[simp] theorem State.busy_resetEngine : s.resetEngine.busy = false := rfl
@[simp] theorem State.busy_work : s.work.busy = s.busy := by
  unfold State.work State.busy
  split <;> simp_all
@[simp] theorem State.liveOperands_accept (c : Word) : (s.accept c).liveOperands = s.liveOperands := rfl
@[simp] theorem State.operands_accept (c : Word) : (s.accept c).operands = s.liveOperands := rfl
@[simp] theorem State.liveOperands_work : s.work.liveOperands = s.liveOperands := by
  unfold State.work
  split <;> rfl
@[simp] theorem State.liveOperands_record (r : Response) : (s.record r).liveOperands = s.liveOperands := rfl
@[simp] theorem State.liveOperands_popHost : s.popHost.liveOperands = s.liveOperands := rfl
@[simp] theorem State.liveOperands_popTurn : s.popTurn.liveOperands = s.liveOperands := rfl
@[simp] theorem State.operands_popTurn : s.popTurn.operands = s.operands := rfl
@[simp] theorem State.busy_popTurn : s.popTurn.busy = s.busy := rfl
@[simp] theorem State.busy_popHost : s.popHost.busy = s.busy := rfl
@[simp] theorem State.busy_record (r : Response) : (s.record r).busy = s.busy := rfl

end Sys2Proof.Machine
end

