-- ==== Sys2Proof/Laws/Bus.lean ====
section
/-! SUPPORT. What a bus access and a host step can do, once for all. -/

namespace Sys2Proof.Machine

/-- Every location a script names lies at the offset it is read from (10_state.md R23). -/
theorem locAt_locOffset (t : Loc) : locAt (locOffset t) = t := by
  cases t with
  | data w =>
    have h : ¬ 0x1000 + 4 * w < 0x1000 := by omega
    simp only [locOffset, locAt, h, if_false]
    congr 1
    omega
  | _ => rfl

/-- Every location sits at a word-aligned offset. -/
theorem locOffset_mod_four (t : Loc) : locOffset t % 4 = 0 := by
  cases t <;> simp [locOffset]

/-- A nameable location's offset lies inside the region. -/
theorem locOffset_lt {wmax : Nat} {t : Loc} (h : t.nameable wmax = true) : locOffset t < regionSize wmax := by
  cases t <;> simp [locOffset, regionSize, Loc.nameable] at * <;> omega

/-- The parameters' base address is word aligned (00_scope.md R7). -/
theorem Params.base_mod_four {p : Params} (h : p.wf = true) : p.base % 4 = 0 := by
  simp only [Params.wf, Bool.and_eq_true, beq_iff_eq] at h
  omega

/-- What a read answers and leaves behind. -/
theorem State.memRead_cases (s : State) (addr : Nat) :
    (s.inRegion addr = false ∧ s.memRead addr = (.elsewhere, s)) ∨
    (s.inRegion addr = true ∧ addr % 4 ≠ 0 ∧ s.memRead addr = (.error, s)) ∨
    (s.inRegion addr = true ∧ addr % 4 = 0 ∧ s.busy = true ∧ volatileLoc (locAt (addr - s.params.base)) = true ∧
      ∃ d, s.memRead addr = (.value d, { s with draws := s.draws + 1 })) ∨
    (s.inRegion addr = true ∧ addr % 4 = 0 ∧
      (s.busy = true → volatileLoc (locAt (addr - s.params.base)) = false) ∧
      s.memRead addr = (.value (s.readLoc (locAt (addr - s.params.base))), s)) := by
  unfold State.memRead
  cases h1 : s.inRegion addr with
  | false => exact .inl ⟨rfl, rfl⟩
  | true =>
    by_cases h2 : addr % 4 = 0
    · cases h3 : s.latch with
      | none => simp [h2, State.draw, h3, State.busy]
      | some l => cases h4 : volatileLoc (locAt (addr - s.params.base)) <;> simp [h2, State.draw, h3, h4, State.busy]
    · simp [h2]

/-- What a write answers and leaves behind. -/
theorem State.memWrite_cases (s : State) (addr : Nat) (v : Word) :
    (s.inRegion addr = false ∧ s.memWrite addr v = (.elsewhere, s)) ∨
    (s.inRegion addr = true ∧ addr % 4 ≠ 0 ∧ s.memWrite addr v = (.error, s)) ∨
    (s.inRegion addr = true ∧ addr % 4 = 0 ∧ s.busy = true ∧ frozenLoc (locAt (addr - s.params.base)) = true ∧
      s.memWrite addr v = (.okay, { s with werr := true })) ∨
    (s.inRegion addr = true ∧ addr % 4 = 0 ∧
      (s.busy = true → frozenLoc (locAt (addr - s.params.base)) = false) ∧
      s.memWrite addr v = (.okay, s.writeLoc (locAt (addr - s.params.base)) v)) := by
  unfold State.memWrite
  cases h1 : s.inRegion addr with
  | false => exact .inl ⟨rfl, rfl⟩
  | true =>
    by_cases h2 : addr % 4 = 0
    · cases h3 : s.busy <;> cases h4 : frozenLoc (locAt (addr - s.params.base)) <;> simp [h2, h4]
    · simp [h2]

/-- A read changes at most the count of draws. -/
theorem State.memRead_state (s : State) (addr : Nat) : ∃ d, (s.memRead addr).2 = { s with draws := d } := by
  rcases s.memRead_cases addr with ⟨-, h⟩ | ⟨-, -, h⟩ | ⟨-, -, -, -, d, h⟩ | ⟨-, -, -, h⟩
  · exact ⟨s.draws, by rw [h]⟩
  · exact ⟨s.draws, by rw [h]⟩
  · exact ⟨s.draws + 1, by rw [h]⟩
  · exact ⟨s.draws, by rw [h]⟩

/-- What one host step can do: a write reaches the bus, or only the model's own fields move. -/
theorem State.hostStep_cases (s : State) :
    (∃ addr v rest, s.host = .write addr v :: rest ∧
      s.hostStep = (s.popHost.memWrite addr v).2.record (s.popHost.memWrite addr v).1) ∨
    (∃ d h tr f, s.hostStep = { s with draws := d, host := h, trace := tr, scriptFailed := f }) := by
  unfold State.hostStep
  cases hh : s.host with
  | nil => exact .inr ⟨s.draws, [], s.trace, s.scriptFailed, by cases s; simp_all⟩
  | cons op rest =>
    cases op with
    | write addr v => exact .inl ⟨addr, v, rest, rfl, rfl⟩
    | read addr =>
      obtain ⟨d, hd⟩ := s.popHost.memRead_state addr
      exact .inr ⟨d, rest, _, s.scriptFailed, by dsimp only; rw [hd]; simp [State.record, State.popHost, hh]; rfl⟩
    | wait =>
      obtain ⟨d, hd⟩ := s.memRead_state (s.addrOf .status)
      dsimp only
      rw [hd]
      split
      · exact .inr ⟨d, s.host, _, s.scriptFailed, rfl⟩
      · exact .inr ⟨d, rest, _, s.scriptFailed, by simp [State.record, State.popHost, hh]; rfl⟩
    | expect addr v =>
      obtain ⟨d, hd⟩ := s.popHost.memRead_state addr
      dsimp only
      rw [hd]
      split
      · exact .inr ⟨d, rest, _, s.scriptFailed, by simp [State.record, State.popHost, hh]; rfl⟩
      · exact .inr ⟨d, [], _, true, rfl⟩

/-- A write inside the region keeps the data buffer's form. -/
theorem State.writeLoc_data_wf (s : State) (t : Loc) (v : Word) (hs : s.data.wf s.params.wmax = true)
    (ht : ∀ w, t = .data w → w < s.params.wmax) : (s.writeLoc t v).data.wf s.params.wmax = true := by
  cases t with
  | data w =>
    refine Data.wf_writeAll _ _ hs fun c hc => ?_
    have h1 := (mem_wordCells hc).1
    have h2 := ht w rfl
    omega
  | _ => exact hs

/-- The data location at an address of the region lies inside the buffer (20_memory.md R51). -/
theorem State.locAt_data_lt (s : State) {addr w : Nat} (h : s.inRegion addr = true)
    (hl : locAt (addr - s.params.base) = .data w) : w < s.params.wmax := by
  simp only [State.inRegion, Bool.and_eq_true, decide_eq_true_eq] at h
  unfold regionSize at h
  unfold locAt at hl
  split at hl
  · split at hl <;> simp at hl
  · simp only [Loc.data.injEq] at hl
    omega

/-- A location's address lies in the region, aligned, and decodes to the location. -/
theorem State.addrOf_spec (s : State) (t : Loc) (hp : s.params.wf = true)
    (ht : t.nameable s.params.wmax = true ∨ t = .reserved) :
    s.inRegion (s.addrOf t) = true ∧ s.addrOf t % 4 = 0 ∧ locAt (s.addrOf t - s.params.base) = t := by
  have h1 := Params.base_mod_four hp
  have h2 := locOffset_mod_four t
  have h3 : locOffset t < regionSize s.params.wmax := by
    rcases ht with ht | rfl
    · exact locOffset_lt ht
    · simp only [locOffset, regionSize]; omega
  refine ⟨by simp [State.inRegion, State.addrOf, h3], by simp only [State.addrOf]; omega, ?_⟩
  rw [State.addrOf, Nat.add_sub_cancel_left, locAt_locOffset]

/-- A read of a location while a command is in flight and the location is volatile answers a draw (10_state.md R41). -/
theorem State.memRead_addrOf_draw (s : State) (t : Loc) (hp : s.params.wf = true)
    (ht : t.nameable s.params.wmax = true ∨ t = .reserved) {l : Latch} (hl : s.latch = some l)
    (hv : volatileLoc t = true) :
    s.memRead (s.addrOf t) = (.value (Config.busyDraw l.seq s.draws), { s with draws := s.draws + 1 }) := by
  obtain ⟨h1, h2, h3⟩ := s.addrOf_spec t hp ht
  simp [State.memRead, h1, h2, h3, hv, State.draw, hl]

/-- Every other read of a location answers its exact value and changes nothing. -/
theorem State.memRead_addrOf_exact (s : State) (t : Loc) (hp : s.params.wf = true)
    (ht : t.nameable s.params.wmax = true ∨ t = .reserved) (hv : s.busy = false ∨ volatileLoc t = false) :
    s.memRead (s.addrOf t) = (.value (s.readLoc t), s) := by
  obtain ⟨h1, h2, h3⟩ := s.addrOf_spec t hp ht
  rcases s.memRead_cases (s.addrOf t) with ⟨h, -⟩ | ⟨-, h, -⟩ | ⟨-, -, hb, hv', h⟩ | ⟨-, -, -, h⟩
  · simp [h1] at h
  · exact absurd h2 h
  · rw [h3] at hv'; rcases hv with hv | hv <;> simp_all
  · rw [h, h3]

/-- A write to a frozen location while a command is in flight is dropped (10_state.md R42). -/
theorem State.memWrite_addrOf_dropped (s : State) (t : Loc) (v : Word) (hp : s.params.wf = true)
    (ht : t.nameable s.params.wmax = true ∨ t = .reserved) (hb : s.busy = true) (hv : frozenLoc t = true) :
    s.memWrite (s.addrOf t) v = (.okay, { s with werr := true }) := by
  obtain ⟨h1, h2, h3⟩ := s.addrOf_spec t hp ht
  rcases s.memWrite_cases (s.addrOf t) v with ⟨h, -⟩ | ⟨-, h, -⟩ | ⟨-, -, -, -, h⟩ | ⟨-, -, h, -⟩
  · simp [h1] at h
  · exact absurd h2 h
  · exact h
  · rw [h3, hv] at h; simp [hb] at h

/-- Every other write to a location takes effect. -/
theorem State.memWrite_addrOf_okay (s : State) (t : Loc) (v : Word) (hp : s.params.wf = true)
    (ht : t.nameable s.params.wmax = true ∨ t = .reserved) (hv : s.busy = false ∨ frozenLoc t = false) :
    s.memWrite (s.addrOf t) v = (.okay, s.writeLoc t v) := by
  obtain ⟨h1, h2, h3⟩ := s.addrOf_spec t hp ht
  rcases s.memWrite_cases (s.addrOf t) v with ⟨h, -⟩ | ⟨-, h, -⟩ | ⟨-, -, hb, hv', h⟩ | ⟨-, -, -, h⟩
  · simp [h1] at h
  · exact absurd h2 h
  · rw [h3] at hv'; rcases hv with hv | hv <;> simp_all
  · rw [h, h3]

end Sys2Proof.Machine
end

