-- ==== Sys2Proof/Laws/Mixing.lean ====
section
/-! SUPPORT. The mixing steps: they keep the length of the block, change one word, and a reverse step undoes the
forward step at the same place. -/

namespace Sys2Proof.Machine

variable (k : Key4) (sum : Word) (v : List Word) (p : Nat)

theorem wordAt_set (x : Word) (q : Nat) :
    wordAt (v.set p x) q = if p = q ∧ p < v.length then x else wordAt v q := by
  simp only [wordAt, List.getD_eq_getElem?_getD, List.getElem?_set]
  by_cases h : p = q
  · subst h
    by_cases hp : p < v.length <;> simp [hp]
  · simp [h]

@[simp] theorem length_fwdStep : (fwdStep k sum v p).length = v.length := by simp [fwdStep]

@[simp] theorem length_revStep : (revStep k sum v p).length = v.length := by simp [revStep]

theorem length_foldl_eq {α : Type} (f : List Word → α → List Word) (hf : ∀ v a, (f v a).length = v.length)
    (l : List α) : (l.foldl f v).length = v.length := by
  induction l generalizing v with
  | nil => rfl
  | cons a l ih => rw [List.foldl_cons, ih, hf]

@[simp] theorem length_fwdRound : (fwdRound k v sum).length = v.length :=
  length_foldl_eq _ _ (length_fwdStep k sum) _

@[simp] theorem length_revRound : (revRound k v sum).length = v.length :=
  length_foldl_eq _ _ (length_revStep k sum) _

@[simp] theorem length_xxteaFwd : (xxteaFwd k v).length = v.length :=
  length_foldl_eq _ _ (fun v sum => length_fwdRound k sum v) _

@[simp] theorem length_xxteaRev : (xxteaRev k v).length = v.length :=
  length_foldl_eq _ _ (fun v sum => length_revRound k sum v) _

/-- The predecessor of a word of a block of two or more is another word. -/
theorem pred_ne {n : Nat} (hn : 2 ≤ n) (hp : p < n) : (p + n - 1) % n ≠ p := by
  rcases Nat.eq_zero_or_pos p with rfl | h
  · rw [Nat.zero_add, Nat.mod_eq_of_lt (by omega)]
    omega
  · rw [show p + n - 1 = p - 1 + n by omega, Nat.add_mod_right, Nat.mod_eq_of_lt (by omega)]
    omega

/-- So is its successor. -/
theorem succ_ne {n : Nat} (hn : 2 ≤ n) (hp : p < n) : (p + 1) % n ≠ p := by
  rcases Nat.lt_or_ge (p + 1) n with h | h
  · rw [Nat.mod_eq_of_lt h]
    omega
  · rw [show p + 1 = n by omega, Nat.mod_self]
    omega

/-- MX at a place does not read the word of that place, so changing that word leaves it the same (42_mixing.md R142). -/
theorem mxAt_set (hv : 2 ≤ v.length) (hp : p < v.length) (x : Word) :
    mxAt k sum (v.set p x) p = mxAt k sum v p := by
  have h1 := pred_ne p hv hp
  have h2 := succ_ne p hv hp
  simp only [mxAt, List.length_set, wordAt_set]
  rw [if_neg fun h => h1 h.1.symm, if_neg fun h => h2 h.1.symm]

theorem set_wordAt_self (hp : p < v.length) : v.set p (wordAt v p) = v := by
  apply List.ext_getElem (by simp)
  intro i h1 h2
  by_cases h : p = i
  · subst h
    simp [wordAt, hp]
  · simp [h]

/-- A reverse step undoes the forward step at the same place. -/
theorem revStep_fwdStep (hv : 2 ≤ v.length) (hp : p < v.length) : revStep k sum (fwdStep k sum v p) p = v := by
  unfold revStep fwdStep
  rw [mxAt_set k sum v p hv hp, wordAt_set, if_pos ⟨rfl, hp⟩, List.set_set, BitVec.add_sub_cancel]
  exact set_wordAt_self v p hp

/-- A forward step undoes the reverse step at the same place. -/
theorem fwdStep_revStep (hv : 2 ≤ v.length) (hp : p < v.length) : fwdStep k sum (revStep k sum v p) p = v := by
  unfold revStep fwdStep
  rw [mxAt_set k sum v p hv hp, wordAt_set, if_pos ⟨rfl, hp⟩, List.set_set, BitVec.sub_add_cancel]
  exact set_wordAt_self v p hp

end Sys2Proof.Machine
end

