-- ==== Sys2Proof/Laws/Commands.lean ====
section
/-! SUPPORT. Every command is one completion step with the result of its rule, and every rule writes inside the data
window. -/

namespace Sys2Proof.Machine

/-- The rule of each command as a function of the snapshot (60_exceptions.md R185: "rule_of(latch.c)"). -/
def ruleOf (i : Instr) (wmax : Nat) (o : Operands) : Result :=
  match i with
  | .nop => nopRule
  | .encrypt => encryptRule wmax o
  | .decrypt => decryptRule wmax o
  | .keynorm => keynormRule o
  | .encode wl => encodeRule wmax wl o
  | .decode wl => decodeRule wmax wl o
  | .mixf => mixRule xxteaFwd wmax o
  | .mixr => mixRule xxteaRev wmax o

/-- What a command does, once for all: it completes with its rule's result. -/
theorem exec_eq_complete (i : Instr) (s : State) :
    exec i s = .next (s.complete (ruleOf i s.params.wmax s.operands)) := by
  cases i <;> rfl

theorem length_encodedBlock (o : Operands) : (encodedBlock o).length = ceil4 o.len.toNat + 1 := by
  simp [encodedBlock]

theorem blockCells_lt {vs : List Word} {n : Nat} (h : vs.length ≤ n) : ∀ c ∈ blockCells 0 vs, c.1 < 4 * n := by
  intro c hc
  obtain ⟨-, h2, -⟩ := mem_blockCells hc
  omega

theorem padCells_lt {l n : Nat} (h : ceil4 l ≤ n) : ∀ c ∈ padCells l, c.1 < 4 * n := by
  intro c hc
  obtain ⟨-, h2, -⟩ := mem_padCells.1 hc
  omega

theorem lengthCells_lt {l n : Nat} (h : ceil4 l + 1 ≤ n) : ∀ c ∈ lengthCells l, c.1 < 4 * n := by
  intro c hc
  obtain ⟨h1, -⟩ := mem_wordCells hc
  omega

theorem malformedLength_writes_lt {n wmax : Nat} (h : n ≤ wmax) (k : Option Key4) :
    ∀ c ∈ (malformedLength n k).writes, c.1 < 4 * wmax :=
  blockCells_lt (by simpa using h)

theorem mixRule_writes_lt (f : Key4 → List Word → List Word) (hf : ∀ k v, (f k v).length = v.length) (wmax : Nat)
    (o : Operands) : ∀ c ∈ (mixRule f wmax o).writes, c.1 < 4 * wmax := by
  unfold mixRule
  dsimp only
  split
  · simp [Result.raise]
  · split
    · simp [Result.raise]
    · exact blockCells_lt (by rw [hf, Data.length_block]; omega)

theorem encodeRule_writes_lt (wmax : Nat) (wl : Bool) (o : Operands) :
    ∀ c ∈ (encodeRule wmax wl o).writes, c.1 < 4 * wmax := by
  intro c hc
  unfold encodeRule at hc
  by_cases h0 : o.len.toNat = 0
  · simp only [h0, if_true, Nat.not_lt_zero, gt_iff_lt, if_false, bne_self_eq_false, Bool.and_false,
      Bool.false_eq_true, List.append_nil] at hc
    obtain ⟨-, h2, -⟩ := mem_padCells.1 hc
    simp [ceil4] at h2
  · dsimp only at hc
    rw [if_neg h0] at hc
    split at hc
    · simp [Result.raise] at hc
    · rename_i h
      simp only [List.mem_append] at hc
      rcases hc with hc | hc
      · exact padCells_lt (by omega) c hc
      · cases wl with
        | false => simp at hc
        | true =>
          simp only [Bool.toNat_true] at h
          simp [h0] at hc
          exact lengthCells_lt (by omega) c hc

/-- Every command writes inside the data window (10_state.md R38). -/
theorem ruleOf_writes_lt (i : Instr) (wmax : Nat) (o : Operands) :
    ∀ c ∈ (ruleOf i wmax o).writes, c.1 < 4 * wmax := by
  cases i with
  | nop => simp [ruleOf, nopRule]
  | keynorm =>
    simp only [ruleOf, keynormRule]
    split <;> simp [Result.raise]
  | encode wl => exact encodeRule_writes_lt wmax wl o
  | mixf => exact mixRule_writes_lt _ length_xxteaFwd wmax o
  | mixr => exact mixRule_writes_lt _ length_xxteaRev wmax o
  | decode wl =>
    unfold ruleOf decodeRule
    dsimp only
    split_ifs
    · simp [Result.raise]
    · simp
    · simp
    · simp
    · exact malformedLength_writes_lt (by omega) none
  | encrypt =>
    unfold ruleOf encryptRule
    dsimp only
    split_ifs
    · simp [emptyResult]
    · simp [Result.raise]
    · simp [Result.raise]
    · exact blockCells_lt (by rw [length_xxteaFwd, length_encodedBlock]; omega)
  | decrypt =>
    unfold ruleOf decryptRule
    dsimp only
    split_ifs
    · simp [emptyResult]
    · simp [Result.raise]
    · simp [Result.raise]
    · simp [Result.raise]
    · simp [Result.raise]
    · exact blockCells_lt (by rw [length_xxteaRev, Data.length_block]; omega)
    · exact malformedLength_writes_lt (by omega) _

/-- A completion inside the window keeps the data buffer's form. -/
theorem State.complete_data_wf (s : State) (r : Result) (hs : s.data.wf s.params.wmax = true)
    (hr : ∀ c ∈ r.writes, c.1 < 4 * s.params.wmax) : (s.complete r).data.wf s.params.wmax = true :=
  Data.wf_writeAll _ _ hs hr

end Sys2Proof.Machine
end

