-- ==== Sys2Proof/Laws/PerInstr.lean ====
section
/-! SUPPORT. Per-instruction families over the syntax. -/

/-- The encoder answers a legal word (30_encoding.md R75) with the reserved bits zero (R74), the command's own `OP`
(R71) and its `WL` (R73). -/
def Sys2Proof.Laws.EncodeLegal.Statement (i : Sys2Proof.Instr) : Prop :=
  Sys2Proof.legalWord (Sys2Proof.encode i) = true ∧ Sys2Proof.reservedField (Sys2Proof.encode i) = 0 ∧
    Sys2Proof.opField (Sys2Proof.encode i) = Sys2Proof.opOf i ∧
    Sys2Proof.wlField (Sys2Proof.encode i) = Sys2Proof.wlOf i

theorem Sys2Proof.Laws.EncodeLegal.nop : Sys2Proof.Laws.EncodeLegal.Statement .nop := by
  unfold Sys2Proof.Laws.EncodeLegal.Statement
  decide

theorem Sys2Proof.Laws.EncodeLegal.encrypt : Sys2Proof.Laws.EncodeLegal.Statement .encrypt := by
  unfold Sys2Proof.Laws.EncodeLegal.Statement
  decide

theorem Sys2Proof.Laws.EncodeLegal.decrypt : Sys2Proof.Laws.EncodeLegal.Statement .decrypt := by
  unfold Sys2Proof.Laws.EncodeLegal.Statement
  decide

theorem Sys2Proof.Laws.EncodeLegal.keynorm : Sys2Proof.Laws.EncodeLegal.Statement .keynorm := by
  unfold Sys2Proof.Laws.EncodeLegal.Statement
  decide

theorem Sys2Proof.Laws.EncodeLegal.encode (wl : Bool) : Sys2Proof.Laws.EncodeLegal.Statement (.encode wl) := by
  unfold Sys2Proof.Laws.EncodeLegal.Statement
  cases wl <;> decide

theorem Sys2Proof.Laws.EncodeLegal.decode (wl : Bool) : Sys2Proof.Laws.EncodeLegal.Statement (.decode wl) := by
  unfold Sys2Proof.Laws.EncodeLegal.Statement
  cases wl <;> decide

theorem Sys2Proof.Laws.EncodeLegal.mixf : Sys2Proof.Laws.EncodeLegal.Statement .mixf := by
  unfold Sys2Proof.Laws.EncodeLegal.Statement
  decide

theorem Sys2Proof.Laws.EncodeLegal.mixr : Sys2Proof.Laws.EncodeLegal.Statement .mixr := by
  unfold Sys2Proof.Laws.EncodeLegal.Statement
  decide
end

