-- ==== Sys2Proof/Laws/Step.lean ====
section
/-! SUPPORT. What one step can do, once for all. -/

namespace Sys2Proof.Machine

/-- The result of a latched word: its command's rule, or ILLEGAL_CMD (60_exceptions.md R185, 30_encoding.md R75). -/
theorem execWord_eq (c : Word) (s : State) :
    (∃ i, decode c = .ok i ∧ execWord c s = .next (s.complete (ruleOf i s.params.wmax s.operands))) ∨
    (∃ e, decode c = .error e ∧ execWord c s = .next (s.complete illegalRule)) := by
  unfold execWord
  cases h : decode c with
  | ok i => exact .inl ⟨i, rfl, exec_eq_complete i s⟩
  | error e => exact .inr ⟨e, rfl, rfl⟩

/-- Inversion of a step: whose turn it was, and what it did. -/
theorem step_cases {s t : State} (h : step s = .next t) :
    (s.nextTurn = .host ∧ t = s.popTurn.hostStep) ∨
    (s.nextTurn = .work ∧ t = s.popTurn.work) ∨
    (s.nextTurn = .reset ∧ t = s.popTurn.resetEngine) ∨
    (s.nextTurn = .complete ∧ s.latch = none ∧ t = s.popTurn) ∨
    (s.nextTurn = .complete ∧ ∃ l i, s.latch = some l ∧ decode l.word = .ok i ∧
      t = s.popTurn.complete (ruleOf i s.params.wmax l.ops)) ∨
    (s.nextTurn = .complete ∧ ∃ l e, s.latch = some l ∧ decode l.word = .error e ∧
      t = s.popTurn.complete illegalRule) := by
  unfold step takeTurn at h
  cases ht : s.nextTurn with
  | host => rw [ht] at h; simp at h; simp [h]
  | work => rw [ht] at h; simp at h; simp [h]
  | reset => rw [ht] at h; simp at h; simp [h]
  | complete =>
    rw [ht] at h
    simp only [State.completeStep, State.popTurn_latch] at h
    cases hl : s.latch with
    | none => rw [hl] at h; simp at h; simp [h]
    | some l =>
      rw [hl] at h
      simp only at h
      have ho : s.popTurn.operands = l.ops := by simp [State.operands, hl]
      rcases execWord_eq l.word s.popTurn with ⟨i, hi, he⟩ | ⟨e, hi, he⟩
      · rw [he, ho] at h
        simp only [Host.Outcome.next.injEq] at h
        simp [hi, ← h]
      · rw [he] at h
        simp only [Host.Outcome.next.injEq] at h
        simp [hi, ← h]

/-- One more step of a run, for any machine of the interface. -/
theorem run_succ (M : Host.Core) {s t : M.State} (h : M.step s = .next t) (n : Nat) :
    Host.Core.run M (n + 1) s = Host.Core.run M n t := by
  simp only [Host.Core.run, h]

/-- The operands of a state whose snapshot is frozen are the registers' own content. -/
theorem State.operands_of_snapshotFrozen {s : State} (h : s.snapshotFrozen = true) : s.operands = s.liveOperands := by
  unfold State.snapshotFrozen at h
  unfold State.operands
  cases hl : s.latch with
  | none => rfl
  | some l => simpa [hl] using h

end Sys2Proof.Machine
end

