-- ==== Sys2Proof/Tests/Slice0.lean ====
section
/-! SUPPORT. The model's own tests: the checks of WellFormed refuse ill-formed terms, words written out from
30_encoding.md decode to their commands, and single steps give the values of spec/95_test_vectors.md (each test names its
row). Then the witnesses: concrete states that meet the hypotheses of the statements in Obligations. -/

namespace Sys2Proof.Tests

open Sys2Proof Sys2Proof.Machine

/-! ### States for tests -/

/-- The vectors' engine with `WMAX = 8`, at `BASE = 0x10000`, after reset. -/
def engine : State := { State.reset with params := { wmax := 8, base := 0x10000 } }

/-- `s` with words in `DATA[0..]`. -/
def withData (s : State) (ws : List Word) : State := { s with data := s.data.writeAll (blockCells 0 ws) }

/-- `s` with a key in the key registers. -/
def withKey (s : State) (n : Word) (w0 w1 w2 w3 : Word) : State :=
  { s with keyLen := n, key := { w0 := w0, w1 := w1, w2 := w2, w3 := w3 } }

/-- `s` with its `NKEY`. -/
def withNkey (s : State) (w0 w1 w2 w3 : Word) : State := { s with nkey := { w0 := w0, w1 := w1, w2 := w2, w3 := w3 } }

/-- The next state of an outcome. -/
def nextOf : Host.Outcome State Fault Refusal → Option State
  | .next t => some t
  | .fault _ => none
  | .refused _ => none

/-- Accept a command word on `s` and take its completion step. -/
def ran (c : Word) (s : State) : Option State := nextOf (step (s.loadCommand c))

/-- What the vectors list: LEN, WCOUNT, STATUS and the first `n` data words. -/
def seen (n : Nat) (s : State) : Word × Word × Word × List Word := (s.len, s.wcount, s.statusWord, s.data.block n)

/-- Key "abcd" in the key registers (V-KN-3). -/
def keyed : State := withKey engine 4 0x64636261 0 0 0

/-- "Hello" as plaintext under key "abcd" (V-EN-4). -/
def hello : State := withData { keyed with len := 5 } [0x6C6C6548, 0x0000006F]

/-- The ciphertext of V-EN-4 under its key. -/
def helloCiphertext : State := withData { keyed with len := 12 } [0xAEB16ECD, 0xD00DE53C, 0x9EECFE5D]

/-- The same with the low bit of the last word flipped (V-DE-8). -/
def tampered : State := withData { keyed with len := 12 } [0xAEB16ECD, 0xD00DE53C, 0x9EECFE5C]

/-- An engine with a NOP in flight. -/
def busyEngine : State := engine.accept 0

/-! ### WellFormed refuses ill-formed terms -/

theorem test_legalWord_refuses_reserved_op : legalWord 0x00000008 = false ∧ legalWord 0x0000000F = false := by decide
theorem test_legalWord_refuses_wl : legalWord 0x00000010 = false ∧ legalWord 0x00000013 = false ∧
    legalWord 0x00000016 = false ∧ legalWord 0x00000017 = false := by decide
theorem test_legalWord_refuses_reserved_bits : legalWord 0x00000020 = false ∧ legalWord 0x80000001 = false := by decide
theorem test_instr_wf : ∀ row ∈ commandTable, row.2.wf = true := by decide
theorem test_params_wf : ({ wmax := 8, base := 0x10000 } : Params).wf = true := by decide +kernel
theorem test_params_refuses_small_wmax : ({ wmax := 1, base := 0x10000 } : Params).wf = false := by decide +kernel
theorem test_params_refuses_large_wmax : ({ wmax := 2 ^ 20 + 1, base := 0 } : Params).wf = false := by decide +kernel
theorem test_params_refuses_base_off_page : ({ wmax := 8, base := 0x10800 } : Params).wf = false := by decide +kernel
theorem test_params_refuses_base_off_region : ({ wmax := 8, base := 0x11000 } : Params).wf = false := by decide +kernel
theorem test_loc_nameable : Loc.nameable 8 .reserved = false ∧ Loc.nameable 8 (.data 8) = false ∧
    Loc.nameable 8 (.data 7) = true := by decide
theorem test_line_refuses_wr : (ScriptLine.wr (.data 8) 0).wf 8 = false ∧ (ScriptLine.rd .reserved).wf 8 = false ∧
    (ScriptLine.expect .reserved 0).wf 8 = false := by decide
theorem test_line_refuses_wrb : (ScriptLine.wrb 7 [1, 2, 3, 4, 5]).wf 8 = false ∧
    (ScriptLine.wrb 7 [1, 2, 3, 4]).wf 8 = true := by decide

/-! ### Decoding: the words of 30_encoding.md R70 to R72, bits 31:5 reserved, bit 4 `WL`, bits 3:0 `OP` -/

theorem test_decode_nop : decode 0b00000000000000000000000000000000#32 = .ok .nop := rfl
theorem test_decode_encrypt : decode 0b00000000000000000000000000000001#32 = .ok .encrypt := rfl
theorem test_decode_decrypt : decode 0b00000000000000000000000000000010#32 = .ok .decrypt := rfl
theorem test_decode_keynorm : decode 0b00000000000000000000000000000011#32 = .ok .keynorm := rfl
theorem test_decode_encode : decode 0b00000000000000000000000000000100#32 = .ok (.encode false) := rfl
theorem test_decode_encode_l : decode 0b00000000000000000000000000010100#32 = .ok (.encode true) := rfl
theorem test_decode_decode : decode 0b00000000000000000000000000000101#32 = .ok (.decode false) := rfl
theorem test_decode_decode_l : decode 0b00000000000000000000000000010101#32 = .ok (.decode true) := rfl
theorem test_decode_mixf : decode 0b00000000000000000000000000000110#32 = .ok .mixf := rfl
theorem test_decode_mixr : decode 0b00000000000000000000000000000111#32 = .ok .mixr := rfl
theorem test_decode_reserved_op : decode 0b00000000000000000000000000001000#32 = .error .reservedOp := rfl
theorem test_decode_with_length : decode 0b00000000000000000000000000010110#32 = .error .withLengthFlag := rfl
theorem test_decode_reserved_bit : decode 0b00000000000000000000000000100000#32 = .error .reservedBits := rfl
theorem test_decodeTableWord : decodeTableWord 32 0x14 = some (.encode true) ∧ decodeTableWord 32 0x20 = none := by
  decide

/-! ### One step of each command -/

/-- V-CM-1. -/
theorem test_nop : (ran 0x0 { engine with err := .malformedLength, done := true }).map State.statusWord
    = some 0x00000002 := by decide +kernel

/-- V-CM-5: ENCRYPT with WL is illegal and encrypts nothing. -/
theorem test_illegal : (ran 0x11 hello).map (seen 2) = some (5, 0, 0x00000032, [0x6C6C6548, 0x0000006F]) := by
  decide +kernel

/-- V-EC-1: junk pad bytes are zeroed, the length word is appended. -/
theorem test_encode_l : (ran 0x14 (withData { engine with len := 5 } [0x6C6C6548, 0xAABBCC6F])).map (seen 3)
    = some (5, 3, 0x00000002, [0x6C6C6548, 0x0000006F, 0x00000005]) := by decide +kernel

/-- V-EC-14: `ceil4` is computed on naturals. -/
theorem test_encode_capacity : (ran 0x04 { engine with len := 0xFFFFFFFF }).map (seen 0)
    = some (0xFFFFFFFF, 0, 0x00000042, []) := by decide +kernel

/-- V-DC-7: the lower bound of the length check is inclusive. -/
theorem test_decode_l : (ran 0x15 (withData { engine with wcount := 2 } [0x00000041, 0x00000001])).map (seen 2)
    = some (1, 2, 0x00000002, [0x00000041, 0x00000001]) := by decide +kernel

/-- V-DC-10: one above the upper bound is malformed, and the buffer is scrubbed. -/
theorem test_decode_l_malformed :
    (ran 0x15 (withData { engine with wcount := 2 } [0x64636261, 0x00000005])).map (seen 2)
      = some (0, 0, 0x00000022, [0, 0]) := by decide +kernel

/-- V-KN-4: the absent bytes of a partly used word are masked. -/
theorem test_keynorm : (ran 0x3 (withKey engine 5 0x64636261 0xFFFFFF65 0xFFFFFFFF 0xFFFFFFFF)).map State.nkey
    = some { w0 := 0x64636261, w1 := 0x00000065, w2 := 0, w3 := 0 } := by decide +kernel

/-- V-KN-1: EMPTY_KEY leaves NKEY. -/
theorem test_keynorm_empty : (ran 0x3 (withNkey engine 0xAAAAAAAA 0xBBBBBBBB 0xCCCCCCCC 0xDDDDDDDD)).map
    (fun t => (t.nkey.w3, t.statusWord)) = some (0xDDDDDDDD, 0x00000012) := by decide +kernel

/-- V-MX-0: one MX evaluation. -/
theorem test_mx : mx { w0 := 0x01234567, w1 := 0x89ABCDEF, w2 := 0xFEDCBA98, w3 := 0x76543210 }
    0x12345678 0x9ABCDEF0 0x9E3779B9 0 2 = 0x6B0141F8 := by decide +kernel

/-- V-MX-4: the final step of a round uses `p = n`. -/
theorem test_mixf : (ran 0x6 (withData (withNkey { engine with wcount := 2 } 1 2 3 4) [0, 0])).map (seen 2)
    = some (0, 2, 0x00000002, [0x22ED3188, 0x65F7BA44]) := by decide +kernel

/-- V-MX-5: `z` is the predecessor. -/
theorem test_mixf_neighbours : (ran 0x6 (withData { engine with wcount := 3 } [1, 2, 3])).map (seen 3)
    = some (0, 3, 0x00000002, [0x0CC0825A, 0x49C765CB, 0xAEA483E7]) := by decide +kernel

/-- V-MX-8: MIXR of a block MIXF did not produce. -/
theorem test_mixr : (ran 0x7 (withData { engine with wcount := 2 } [0, 0])).map (seen 2)
    = some (0, 2, 0x00000002, [0x2C0215E9, 0x18F7E575]) := by decide +kernel

/-- V-MX-13: a huge count is CAPACITY, not SHORT_BLOCK. -/
theorem test_mixr_capacity : (ran 0x7 { engine with wcount := 0xFFFFFFFF }).map State.statusWord
    = some 0x00000042 := by decide +kernel

/-- V-EN-4. -/
theorem test_encrypt : (ran 0x1 hello).map (seen 3)
    = some (12, 3, 0x00000002, [0xAEB16ECD, 0xD00DE53C, 0x9EECFE5D]) := by decide +kernel

/-- V-EN-16: EMPTY_KEY is checked before CAPACITY. -/
theorem test_encrypt_empty_key : (ran 0x1 { engine with len := 29 }).map State.statusWord = some 0x00000012 := by
  decide +kernel

/-- V-DE-2. -/
theorem test_decrypt : (ran 0x2 helloCiphertext).map (seen 3)
    = some (5, 3, 0x00000002, [0x6C6C6548, 0x0000006F, 0x00000005]) := by decide +kernel

/-- V-DE-8: a tampered last word, with the scrub and the NKEY write of R172. -/
theorem test_decrypt_tampered : (ran 0x2 tampered).map (fun t => (seen 3 t, t.nkey.w0))
    = some ((0, 0, 0x00000022, [0, 0, 0]), 0x64636261) := by decide +kernel

/-! ### Status, bus, turns -/

/-- V-ST-1 and V-ST-2: write 1 to clear; ERR is read-only. -/
theorem test_status_w1c :
    let s := { engine with err := .malformedLength, done := true, werr := true }
    ((s.memWrite 0x10004 0x00000002).2.statusWord, (s.memWrite 0x10004 0xFFFFFFFF).2.statusWord)
      = (0x00000120, 0x00000020) := by decide +kernel

/-- V-ST-5: what reads answer right after reset. -/
theorem test_reset_reads : (engine.memRead 0x10004).1 = .value 0 ∧ (engine.memRead 0x10038).1 = .value 8 ∧
    (engine.memRead 0x10000).1 = .value 0 ∧ (engine.memRead 0x10020).1 = .value 0 := by decide +kernel

/-- V-BUS-3: a misaligned access is a bus ERROR. -/
theorem test_misaligned : engine.memRead 0x10002 = (.error, engine) ∧ engine.memWrite 0x10002 5 = (.error, engine) := by
  decide +kernel

/-- V-BSY-1 and V-BSY-2: a write while busy is dropped and sets WERR. -/
theorem test_write_while_busy :
    (let t := (busyEngine.memWrite 0x10030 7).2
     (t.statusWord, t.len) = (0x00000101, 0)) ∧
    (let t := (busyEngine.memWrite 0x10000 1).2
     (t.statusWord, t.latch.map Latch.word) = (0x00000101, some 0)) := by decide +kernel

/-! ### Witnesses: states that meet the hypotheses of the statements, at the edges of their ranges -/

theorem witness_DecodeAndEncodeAgree : (Instr.encode true).wf = true ∧ decode 0x15 = .ok (.decode true) := ⟨rfl, rfl⟩

theorem witness_IllegalWordsCompleteWithoutEffect :
    legalWord 0x7 = true ∧ legalWord 0x8 = false ∧ legalWord 0x16 = false ∧ legalWord 0x20 = false := by decide

/-- Every command ends in a next state, for each of the frame's cases. -/
theorem witness_CommandsWriteOnlyTheirRegisters :
    (∃ t, exec .nop engine = .next t) ∧ (∃ t, exec .keynorm keyed = .next t) ∧ (∃ t, exec .mixf engine = .next t) ∧
      (∃ t, exec (.encode true) hello = .next t) ∧
      (∃ t, exec (.decode true) engine = .next t ∧ t.err ≠ .malformedLength) :=
  ⟨⟨_, rfl⟩, ⟨_, rfl⟩, ⟨_, rfl⟩, ⟨_, rfl⟩, ⟨_, rfl, by decide +kernel⟩⟩

theorem witness_ErrorsWriteOnlyStatus :
    (∃ t, exec .keynorm engine = .next t ∧ t.err ≠ .ok ∧ t.err ≠ .malformedLength) ∧
      (∃ t, exec .decrypt tampered = .next t ∧ t.err = .malformedLength) ∧
      (∃ t, exec (.decode true) (withData { engine with wcount := 1 } [1]) = .next t ∧ t.err = .malformedLength) :=
  ⟨⟨_, rfl, by decide +kernel⟩, ⟨_, rfl, by decide +kernel⟩, ⟨_, rfl, by decide +kernel⟩⟩

theorem witness_ErrorCodesFollowTheCheckOrder : legalWord 0x0000000F = false := by decide

theorem witness_KeynormNormalizesThePresentedKey :
    engine.operands.presentsKey [] ∧ keyed.operands.presentsKey [0x61, 0x62, 0x63, 0x64] ∧
      (withKey engine 17 0 0 0 0).operands.presentsKey (List.replicate 17 0) :=
  ⟨⟨rfl, by decide +kernel⟩, ⟨rfl, by decide +kernel⟩, ⟨rfl, by decide +kernel⟩⟩

theorem witness_KeynormMasksAbsentKeyBytes :
    keyed.operands.keyLen ≠ 0 ∧ 3 < keyed.operands.keyLen.toNat ∧ ¬ 4 < keyed.operands.keyLen.toNat := by decide +kernel

/-- S-5's keys: 16 bytes, and the same with three more. -/
theorem witness_KeyBytesBeyondSixteenDoNotMatter :
    let key : List Byte := [0x30, 0x31, 0x32, 0x33, 0x34, 0x35, 0x36, 0x37, 0x38, 0x39, 0x61, 0x62, 0x63, 0x64, 0x65, 0x66]
    let key' := key ++ [0x58, 0x59, 0x5A]
    16 ≤ key.length ∧ 16 ≤ key'.length ∧ key.take 16 = key'.take 16 := by decide

theorem witness_TrailingZeroKeyBytesDoNotMatter :
    ([0x6B] : List Byte) ≠ [] ∧ ([0x6B] : List Byte).length < 16 ∧ (List.replicate 15 (0x6B : Byte)).length < 16 ∧
      16 ≤ (List.replicate 17 (0x6B : Byte)).length ∧ 1 ≤ 1 ∧ engine.operands.keyLen = 0 := by decide +kernel

/-- V-EC-11 fills the buffer, V-EC-12 does not fit. -/
theorem witness_EncodeComputesWcEncode :
    engine.snapshotFrozen = true ∧
      ceil4 ({ engine with len := 28 } : State).operands.len.toNat + true.toNat ≤ engine.params.wmax ∧
      engine.params.wmax < ceil4 ({ engine with len := 29 } : State).operands.len.toNat + true.toNat := by decide +kernel

/-- 25 bytes and a length word fill eight words; bytes 25 to 27 are pad bytes, byte 28 is the length word's first. -/
theorem witness_EncodeWritesPadAndLengthOnly :
    engine.params.wf = true ∧ ({ engine with len := 25 } : State).operands.len.toNat ≠ 0 ∧
      ceil4 25 + true.toNat ≤ engine.params.wmax ∧ 25 ≤ 27 ∧ 27 < 4 * ceil4 25 ∧ 4 * ceil4 25 + 4 ≤ 32 := by
  decide +kernel

theorem witness_EmptyBuffersStayEmpty : engine.operands.len = 0 ∧ engine.operands.wcount = 0 := by decide +kernel

/-- V-DC-13 names more words than there are; eight words exist; V-DC-8 is valid and V-DC-9 is malformed. -/
theorem witness_DecodeComputesWcDecode :
    engine.snapshotFrozen = true ∧ engine.params.wmax < ({ engine with wcount := 9 } : State).operands.wcount.toNat ∧
      ({ engine with wcount := 8 } : State).operands.wcount.toNat ≤ engine.params.wmax ∧
      wcDecode [0x64636261, 4] true = .ok [0x61, 0x62, 0x63, 0x64] ∧
      wcDecode [0x64636261, 0] true = .error .malformedLength := ⟨rfl, by decide +kernel, by decide +kernel, rfl, rfl⟩

/-- The length words 0, 1, 4 and 5 of a two-word buffer: just outside and just inside the bounds. -/
theorem witness_DecodeValidatesTheLengthWord :
    let s := fun m => withData { engine with wcount := 2 } [0x64636261, m]
    (s 0).operands.wcount.toNat = 2 ∧ 2 ≤ (s 0).params.wmax ∧
      ((s 1).operands.data.word 1).toNat = 1 ∧ 4 ≤ 1 + 3 ∧ ((s 4).operands.data.word 1).toNat = 4 ∧
      ¬ 4 ≤ ((s 0).operands.data.word 1).toNat + 3 ∧ ¬ ((s 5).operands.data.word 1).toNat ≤ 4 := by decide +kernel

theorem witness_CodecRoundTrip :
    engine.params.wf = true ∧ ceil4 (List.replicate 28 (0x41 : Byte)).length + 1 ≤ engine.params.wmax ∧
      ceil4 ([] : List Byte).length + 1 ≤ engine.params.wmax := by decide +kernel

theorem witness_ForwardLoopComputesForwardTransform : 2 ≤ ([0, 0] : List Word).length := by decide

theorem witness_ReverseLoopRunsExactlyRoundsTimes :
    2 ≤ ([0, 0] : List Word).length ∧ rounds ([0, 0] : List Word).length ≤ 32 ∧ 32 ≤ rounds 2 := by decide

theorem witness_TransformsAreInverse : 2 ≤ ([0, 0] : List Word).length := by decide

/-- The three cases of MIXF and MIXR at their edges: nine words, one word, two and eight words. -/
theorem witness_MixfAppliesForwardTransform :
    engine.params.wmax < ({ engine with wcount := 9 } : State).operands.wcount.toNat ∧
      ({ engine with wcount := 1 } : State).operands.wcount.toNat < 2 ∧
      2 ≤ ({ engine with wcount := 2 } : State).operands.wcount.toNat ∧
      ({ engine with wcount := 8 } : State).operands.wcount.toNat ≤ engine.params.wmax := by decide +kernel

theorem witness_MixrAppliesReverseTransform :
    engine.params.wmax < ({ engine with wcount := 9 } : State).operands.wcount.toNat ∧
      ({ engine with wcount := 0 } : State).operands.wcount.toNat < 2 ∧
      2 ≤ ({ engine with wcount := 2 } : State).operands.wcount.toNat ∧
      ({ engine with wcount := 8 } : State).operands.wcount.toNat ≤ engine.params.wmax := by decide +kernel

theorem witness_ShortBlocksAreRejected :
    engine.params.wf = true ∧ ({ engine with wcount := 1 } : State).operands.wcount.toNat ≤ 1 ∧
      ({ keyed with len := 4 } : State).operands.len = 4 ∧ ({ keyed with len := 4 } : State).operands.keyLen ≠ 0 := by
  decide +kernel

theorem witness_EmptyInputIsTheFastPath : busyEngine.snapshotFrozen = true ∧ busyEngine.operands.len = 0 := by
  decide +kernel

/-- Each clause of ENCRYPT: empty input; no key; 29 bytes do not fit; 28 bytes fill the buffer. -/
theorem witness_EncryptComputesXxteaEncrypt :
    engine.snapshotFrozen = true ∧ engine.operands.presentsKey [] ∧
      keyed.operands.presentsKey [0x61, 0x62, 0x63, 0x64] ∧ keyed.operands.len.toNat = 0 ∧
      hello.operands.len.toNat ≠ 0 ∧ hello.operands.presentsKey [0x61, 0x62, 0x63, 0x64] ∧
      engine.params.wmax < ceil4 29 + 1 ∧ ceil4 28 + 1 ≤ engine.params.wmax :=
  ⟨rfl, ⟨rfl, by decide +kernel⟩, ⟨rfl, by decide +kernel⟩, rfl, by decide +kernel, ⟨rfl, by decide +kernel⟩,
    by decide +kernel, by decide +kernel⟩

/-- Each clause of DECRYPT: lengths 0, 7, 36 (too long), 4 (one word), 8 (two words, V-DE-13) and 32 (the whole buffer),
and both results of the pure function. -/
theorem witness_DecryptComputesXxteaDecrypt :
    helloCiphertext.snapshotFrozen = true ∧ helloCiphertext.operands.presentsKey [0x61, 0x62, 0x63, 0x64] ∧
      7 % 4 ≠ 0 ∧ engine.params.wmax < 36 / 4 ∧ 4 / 4 < 2 ∧ 2 ≤ 8 / 4 ∧ 32 / 4 ≤ engine.params.wmax ∧
      ((xxteaDecrypt (helloCiphertext.data.bytes 12) [0x61, 0x62, 0x63, 0x64]).toOption
        = some [0x48, 0x65, 0x6C, 0x6C, 0x6F]) ∧
      ((xxteaDecrypt (List.replicate 8 0) [0x6B]).toOption = none) :=
  ⟨rfl, ⟨rfl, by decide +kernel⟩, by decide, by decide +kernel, by decide, by decide, by decide +kernel,
    by decide +kernel, by decide +kernel⟩

theorem witness_EncryptOutputLength :
    hello.params.wf = true ∧ hello.operands.len.toNat ≠ 0 ∧ hello.operands.keyLen ≠ 0 ∧
      ceil4 hello.operands.len.toNat + 1 ≤ hello.params.wmax ∧ ceil4 28 + 1 ≤ hello.params.wmax := by decide +kernel

theorem witness_DecryptUndoesEncrypt :
    engine.params.wf = true ∧ ([0x61] : List Byte) ≠ [] ∧ ([0x6B] : List Byte) ≠ [] ∧
      ceil4 ([0x61] : List Byte).length + 1 ≤ engine.params.wmax ∧ ceil4 28 + 1 ≤ engine.params.wmax := by decide +kernel

theorem witness_EngineRoundTrip :
    hello.params.wf = true ∧ hello.latch = none ∧ hello.len ≠ 0 ∧ hello.keyLen ≠ 0 ∧
      ceil4 hello.len.toNat + 1 ≤ hello.params.wmax := by decide +kernel

theorem witness_CipherCommandsDecompose :
    (hello.params.wf = true ∧ hello.latch = none ∧ hello.len ≠ 0 ∧ hello.keyLen ≠ 0 ∧
      ceil4 hello.len.toNat + 1 ≤ hello.params.wmax) ∧
    (helloCiphertext.params.wf = true ∧ helloCiphertext.latch = none ∧ helloCiphertext.keyLen ≠ 0 ∧
      helloCiphertext.len.toNat % 4 = 0 ∧ 8 ≤ helloCiphertext.len.toNat ∧
      helloCiphertext.len.toNat / 4 ≤ helloCiphertext.params.wmax) := by decide +kernel

/-- Program P6's seven bytes, and three bytes (one word). -/
theorem witness_ReferencePathForUnalignedCiphertext :
    let s := withData { keyed with len := 7 } [0xAEB16ECD, 0x000DE53C]
    (s.params.wf = true ∧ s.latch = none ∧ s.len.toNat % 4 ≠ 0 ∧ 2 ≤ ceil4 s.len.toNat ∧
      ceil4 s.len.toNat ≤ s.params.wmax ∧ ceil4 3 < 2) ∧
    s.liveOperands.presentsKey [0x61, 0x62, 0x63, 0x64] ∧ ([0x61, 0x62, 0x63, 0x64] : List Byte) ≠ [] :=
  ⟨by decide +kernel, ⟨rfl, by decide +kernel⟩, by decide⟩

/-- Two states that differ outside the snapshot. -/
theorem witness_ResultDependsOnSnapshotOnly :
    let s' := { hello with ie := true, werr := true, err := ResultCode.capacity }
    hello.params = s'.params ∧ hello.operands = s'.operands ∧ hello ≠ s' := by decide +kernel

/-- Two states whose pad bytes and third words differ. -/
theorem witness_CiphertextIgnoresBytesBeyondThePlaintext :
    let s' := withData { keyed with len := 5 } [0x6C6C6548, 0xAABBCC6F, 0x12345678]
    hello.params = s'.params ∧ hello.operands.len = s'.operands.len ∧ hello.operands.keyLen = s'.operands.keyLen ∧
      hello.operands.key = s'.operands.key ∧
      (∀ a < hello.operands.len.toNat, hello.operands.data.byte a = s'.operands.data.byte a) ∧
      ((nextOf (exec .encrypt hello)).map State.err = some .ok) ∧ hello.operands.len ≠ 0 := by decide +kernel

theorem witness_ReadsWhileBusy :
    busyEngine.latch.isSome = true ∧ busyEngine.params.wf = true ∧ busyEngine.busy = true ∧ Loc.nameable busyEngine.params.wmax (.data 7) = true ∧
      Loc.nameable busyEngine.params.wmax .status = true := by decide +kernel

theorem witness_WritesWhileBusy :
    busyEngine.params.wf = true ∧ busyEngine.busy = true ∧ Loc.nameable busyEngine.params.wmax (.data 7) = true ∧
      Loc.nameable busyEngine.params.wmax .cap = true := by decide +kernel

theorem witness_IdleReadAfterWrite :
    engine.params.wf = true ∧ engine.busy = false ∧ Loc.nameable engine.params.wmax (.data 7) = true ∧
      Loc.nameable engine.params.wmax .len = true ∧ Loc.len ≠ .data 7 := by decide +kernel

theorem witness_ReadOnlyAndReservedLocations :
    engine.params.wf = true ∧ engine.busy = false ∧ busyEngine.params.wf = true ∧ busyEngine.busy = true ∧ 0x03C ≤ 0x03C ∧ 0x03C % 4 = 0 ∧ 0xFFC ≤ 0xFFC ∧ 0xFFC % 4 = 0 := by decide +kernel

/-- The region of the test engine is `[0x10000, 0x11020)`. -/
theorem witness_MisalignedAccessIsABusError :
    engine.inRegion 0x10001 = true ∧ 0x10001 % 4 ≠ 0 ∧ engine.inRegion 0x1101F = true ∧ 0x1101F % 4 ≠ 0 := by decide +kernel

theorem witness_AccessOutsideTheRegionDoesNotReachTheEngine :
    engine.inRegion 0xFFFF = false ∧ engine.inRegion 0x10000 = true ∧ engine.inRegion 0x1101F = true ∧
      engine.inRegion 0x11020 = false := by decide +kernel

theorem witness_StatusRegister : engine.params.wf = true ∧ busyEngine.params.wf = true := by decide +kernel

theorem witness_InterruptEnableRegister : engine.params.wf = true ∧ busyEngine.params.wf = true := by decide +kernel

theorem witness_AcceptanceLatchesTheSnapshot : engine.params.wf = true ∧ engine.busy = false := by decide +kernel

theorem witness_InterruptFollowsCompletion :
    legalWord 0x8 = false ∧ (0x00000102 : Word).getLsbD 1 = true ∧ (0x0 : Word).getLsbD 0 = false := by decide

theorem witness_ResetStep : ({ busyEngine with turns := [.reset] } : State).nextTurn = .reset := rfl

theorem witness_StepKeepsInvariant :
    engine.inv = true ∧ busyEngine.inv = true ∧ hello.inv = true ∧ (∃ t, step busyEngine = .next t) :=
  ⟨by decide +kernel, by decide +kernel, by decide +kernel, ⟨_, rfl⟩⟩

theorem witness_StepRunsTheLatchedCommand :
    (hello.loadCommand 0x1).nextTurn = .complete ∧
      ∃ l, (hello.loadCommand 0x1).latch = some l ∧ decode l.word = .ok .encrypt := ⟨rfl, _, rfl, rfl⟩

/-- BUSY rises by a host write to CMD, and falls by the completion step. -/
theorem witness_BusyFollowsAcceptanceAndCompletion :
    (let s := { engine with host := [.write 0x10000 0x1] }
     s.params.wf = true ∧ s.busy = false ∧ (nextOf (step s)).map State.busy = some true) ∧
    (busyEngine.params.wf = true ∧ busyEngine.busy = true ∧ (nextOf (step busyEngine)).map State.busy = some false) := by
  decide +kernel

/-- NKEY changes by KEYNORM with code OK, by DECRYPT with MALFORMED_LENGTH, and by reset. -/
theorem witness_NkeyIsWrittenByKeyCommandsOnly :
    let seenNkey := fun s => (nextOf (step s)).map fun t => (decide (t.nkey = s.nkey), t.err)
    seenNkey (keyed.loadCommand 0x3) = some (false, .ok) ∧
      seenNkey (tampered.loadCommand 0x2) = some (false, .malformedLength) ∧
      seenNkey { withNkey engine 1 2 3 4 with turns := [.reset] } = some (false, .ok) := by decide +kernel

/-- `DATA` has a first and a last word after reset. -/
theorem witness_StateAfterReset : (Loc.cmd, (0 : Word)) ∈ resetReads ∧ 0 < Config.WMAX :=
  ⟨by simp [resetReads], by unfold Config.WMAX; omega⟩

/-- ERR changes, WERR rises, WERR falls. -/
theorem witness_ErrAndWerrWriters :
    engine.params.wf = true ∧ ((nextOf (step (engine.accept 0x3))).map State.err = some .emptyKey) ∧
      (let s := { busyEngine with host := [.write 0x10030 7], turns := [.host] }
       s.werr = false ∧ (nextOf (step s)).map State.werr = some true) ∧
      (let s := { engine with werr := true, host := [.write 0x10004 0x100] }
       (nextOf (step s)).map State.werr = some false) := by decide +kernel

theorem witness_HostCannotReachARunningCommand :
    ({ busyEngine with host := [.write 0x10030 7] } : State).busy = true := rfl

theorem witness_EveryAcceptedCommandEnds :
    ({ busyEngine with turns := [.host, .work, .work] } : State).busy = true := rfl

theorem witness_WaitPollsUntilIdle :
    (let s := { busyEngine with host := [.wait] }
     s.params.wf = true ∧ s.host = [.wait] ∧ s.busy = true) ∧
    (let s := { engine with host := [.wait] }
     s.host = [.wait] ∧ s.busy = false) := by decide +kernel

/-- The last two words of the buffer, and a key of 17 bytes. -/
theorem witness_ScriptsPlaceBytesAndKeys :
    (let line := ScriptLine.wrb 6 [1, 2, 3, 4, 5, 6, 7, 8]
     let s := { engine with host := expandLine 0x10000 line }
     s.params.wf = true ∧ s.latch = none ∧ line.wf s.params.wmax = true ∧ s.host = expandLine s.params.base line) ∧
    (let line := ScriptLine.wrk (List.replicate 17 0x6B)
     let s := { engine with host := expandLine 0x10000 line }
     s.latch = none ∧ line.wf s.params.wmax = true ∧ s.host = expandLine s.params.base line) := by decide +kernel

end Sys2Proof.Tests
end

