-- ==== Sys2Proof/Proofs/Invariant.lean ====
section
/-! PROOF. The invariant is kept by every update of the state, and so by every agent's turn. -/

namespace Sys2Proof.Machine

/-! ### The invariant and its parts -/

theorem State.inv_iff (s : State) :
    s.inv = true ↔ s.params.wf = true ∧ s.data.wf s.params.wmax = true ∧ (s.busy = true → s.done = false) ∧
      s.snapshotFrozen = true := by
  have hstatus : s.statusConsistent = true ↔ (s.busy = true → s.done = false) := by
    cases hb : s.busy <;> simp [State.statusConsistent, hb]
  simp [State.inv, hstatus, and_assoc]

/-- An idle engine has no snapshot to keep and may show DONE: only the parameters and the buffer are left to check. -/
theorem State.inv_of_latch_none {s : State} (hl : s.latch = none) (hp : s.params.wf = true)
    (hd : s.data.wf s.params.wmax = true) : s.inv = true := by
  rw [State.inv_iff]
  exact ⟨hp, hd, by simp [State.busy, hl], by simp [State.snapshotFrozen, hl]⟩

/-! ### Updates of fields the invariant does not read -/

@[simp] theorem State.inv_popTurn (s : State) : s.popTurn.inv = s.inv := rfl

@[simp] theorem State.inv_popHost (s : State) : s.popHost.inv = s.inv := rfl

@[simp] theorem State.inv_record (s : State) (r : Response) : (s.record r).inv = s.inv := rfl

@[simp] theorem State.inv_writeIrqEn (s : State) (v : Word) : (s.writeIrqEn v).inv = s.inv := rfl

/-! ### Updates by the engine -/

/-- Acceptance latches the registers as they stand, and lowers DONE as BUSY rises (60_exceptions.md R184). -/
theorem State.inv_accept {s : State} (c : Word) (hs : s.inv = true) : (s.accept c).inv = true := by
  rw [State.inv_iff] at hs ⊢
  obtain ⟨hp, hd, -, -⟩ := hs
  exact ⟨hp, hd, by simp, by simp [State.snapshotFrozen]⟩

/-- Completion empties the latch, so a result that stays inside the window is all it needs. -/
theorem State.inv_complete {s : State} {r : Result} (hs : s.inv = true)
    (hr : ∀ c ∈ r.writes, c.1 < 4 * s.params.wmax) : (s.complete r).inv = true := by
  obtain ⟨hp, hd, -, -⟩ := s.inv_iff.1 hs
  exact State.inv_of_latch_none rfl hp (s.complete_data_wf r hd hr)

theorem State.inv_resetEngine {s : State} (hs : s.inv = true) : s.resetEngine.inv = true :=
  State.inv_of_latch_none rfl (s.inv_iff.1 hs).1 (Data.wf_empty _ _)

/-- A work turn redraws the sequencing state and leaves the snapshot. -/
@[simp] theorem State.snapshotFrozen_work (s : State) : s.work.snapshotFrozen = s.snapshotFrozen := by
  unfold State.work
  cases hl : s.latch with
  | none => rfl
  | some l =>
    simp only [State.snapshotFrozen, hl]
    rfl

theorem State.inv_work {s : State} (hs : s.inv = true) : s.work.inv = true := by
  rw [State.inv_iff] at hs ⊢
  simpa using hs

/-! ### Updates by the host -/

/-- The host's acknowledge can only lower DONE (10_state.md R25). -/
theorem State.inv_writeStatus {s : State} (v : Word) (hs : s.inv = true) : (s.writeStatus v).inv = true := by
  rw [State.inv_iff] at hs ⊢
  obtain ⟨hp, hd, hb, hf⟩ := hs
  refine ⟨hp, hd, fun h => ?_, hf⟩
  have hdone : s.done = false := hb h
  simp [hdone]

@[simp] theorem State.writeLoc_params (s : State) (t : Loc) (v : Word) : (s.writeLoc t v).params = s.params := by
  cases t <;> rfl

/-- Only a write to CMD touches the latch. -/
theorem State.writeLoc_latch (s : State) {t : Loc} (v : Word) (ht : t ≠ .cmd) : (s.writeLoc t v).latch = s.latch := by
  cases t with
  | cmd => exact absurd rfl ht
  | _ => rfl

/-- A write that takes effect keeps the invariant: while a command runs it reaches no operand register (10_state.md
R42), and on an idle engine it stays inside the buffer. -/
theorem State.inv_writeLoc {s : State} {t : Loc} (v : Word) (hs : s.inv = true)
    (hfrozen : s.busy = true → frozenLoc t = false) (hdata : ∀ w, t = .data w → w < s.params.wmax) :
    (s.writeLoc t v).inv = true := by
  by_cases hcmd : t = .cmd
  · subst hcmd
    exact State.inv_accept v hs
  cases hl : s.latch with
  | none =>
    obtain ⟨hp, hd, -, -⟩ := s.inv_iff.1 hs
    refine State.inv_of_latch_none ((s.writeLoc_latch v hcmd).trans hl) ?_ ?_
    · simpa using hp
    · simpa using s.writeLoc_data_wf t v hd hdata
  | some l =>
    have hnot : frozenLoc t = false := hfrozen (by simp [State.busy, hl])
    cases t with
    | status => exact State.inv_writeStatus v hs
    | irqEn => exact hs
    | nkey0 | nkey1 | nkey2 | nkey3 | cap | reserved => exact hs
    | cmd | keyLen | key0 | key1 | key2 | key3 | len | wcount | data => simp [frozenLoc] at hnot

theorem State.inv_memWrite {s : State} (addr : Nat) (v : Word) (hs : s.inv = true) :
    (s.memWrite addr v).2.inv = true := by
  rcases s.memWrite_cases addr v with ⟨-, h⟩ | ⟨-, -, h⟩ | ⟨-, -, -, -, h⟩ | ⟨hin, -, hfrozen, h⟩ <;> rw [h]
  · exact hs
  · exact hs
  · exact hs
  · exact State.inv_writeLoc v hs hfrozen fun _ hw => s.locAt_data_lt hin hw

theorem State.inv_hostStep {s : State} (hs : s.inv = true) : s.hostStep.inv = true := by
  rcases s.hostStep_cases with ⟨addr, v, -, -, h⟩ | ⟨d, h, tr, f, h⟩ <;> rw [h]
  · rw [State.inv_record]
    exact State.inv_memWrite addr v (by simpa using hs)
  · exact hs

/-! ### The step -/

/-- Settles O51: each turn is one of the updates above, on the state with the turn taken off the schedule. -/
theorem stepKeepsInvariant : Obligations.StepKeepsInvariant := by
  unfold Obligations.StepKeepsInvariant
  intro s t hs hstep
  have hpop : s.popTurn.inv = true := by simpa using hs
  rcases step_cases hstep with ⟨-, rfl⟩ | ⟨-, rfl⟩ | ⟨-, rfl⟩ | ⟨-, -, rfl⟩ | ⟨-, l, i, -, -, rfl⟩ |
    ⟨-, l, e, -, -, rfl⟩
  · exact State.inv_hostStep hpop
  · exact State.inv_work hpop
  · exact State.inv_resetEngine hpop
  · exact hpop
  · exact State.inv_complete hpop (ruleOf_writes_lt i s.params.wmax l.ops)
  · exact State.inv_complete hpop (by simp [illegalRule, Result.raise])

end Sys2Proof.Machine
end

