-- ==== Sys2Proof/Proofs/CommandFrames.lean ====
section
/-! PROOF. What each command's rule leaves alone (10_state.md R40). The rules say it of their results; every command
is one completion step with its rule's result, so the registers follow. -/

namespace Sys2Proof.Machine

/-- A command has exactly one next state: the completion with its rule's result. -/
theorem exec_eq_next_iff {i : Instr} {s t : State} :
    exec i s = .next t ↔ s.complete (ruleOf i s.params.wmax s.operands) = t := by
  rw [exec_eq_complete, Host.Outcome.next.injEq]

/-! ### The writes a rule's result does not ask for -/

/-- KEYNORM asks for no write but NKEY's, failing or not. -/
theorem keynormRule_frame (o : Operands) :
    (keynormRule o).writes = [] ∧ (keynormRule o).wcount = none ∧ (keynormRule o).len = none := by
  unfold keynormRule
  split <;> exact ⟨rfl, rfl, rfl⟩

/-- MIXF and MIXR ask for no write but the block's, failing or not. -/
theorem mixRule_frame (f : Key4 → List Word → List Word) (wmax : Nat) (o : Operands) :
    (mixRule f wmax o).nkey = none ∧ (mixRule f wmax o).wcount = none ∧ (mixRule f wmax o).len = none := by
  unfold mixRule
  dsimp only
  split_ifs <;> exact ⟨rfl, rfl, rfl⟩

theorem encodeRule_frame (wmax : Nat) (wl : Bool) (o : Operands) :
    (encodeRule wmax wl o).nkey = none ∧ (encodeRule wmax wl o).len = none := by
  unfold encodeRule
  dsimp only
  split_ifs <;> exact ⟨rfl, rfl⟩

/-- DECODE never asks for a write of NKEY, and for one of DATA or WCOUNT only in the scrub of MALFORMED_LENGTH
(40_word_codec.md R108). -/
theorem decodeRule_frame (wmax : Nat) (wl : Bool) (o : Operands) :
    (decodeRule wmax wl o).nkey = none ∧
    ((decodeRule wmax wl o).code ≠ .malformedLength →
      (decodeRule wmax wl o).writes = [] ∧ (decodeRule wmax wl o).wcount = none) := by
  unfold decodeRule
  dsimp only
  split_ifs
  case neg => exact ⟨rfl, fun h => absurd rfl h⟩
  all_goals exact ⟨rfl, fun _ => ⟨rfl, rfl⟩⟩

/-- Only KEYNORM, ENCRYPT and DECRYPT ask for a write of NKEY. -/
theorem ruleOf_nkey_eq_none {i : Instr} (wmax : Nat) (o : Operands) (hk : i ≠ .keynorm) (he : i ≠ .encrypt)
    (hd : i ≠ .decrypt) : (ruleOf i wmax o).nkey = none := by
  cases i with
  | nop => rfl
  | encode wl => exact (encodeRule_frame wmax wl o).1
  | decode wl => exact (decodeRule_frame wmax wl o).1
  | mixf | mixr => exact (mixRule_frame _ wmax o).1
  | keynorm => exact absurd rfl hk
  | encrypt => exact absurd rfl he
  | decrypt => exact absurd rfl hd

/-! ### The registers after a completion -/

theorem State.complete_data_of_writes_eq_nil (s : State) {r : Result} (h : r.writes = []) :
    (s.complete r).data = s.data := by simp [h]

theorem State.complete_wcount_of_eq_none (s : State) {r : Result} (h : r.wcount = none) :
    (s.complete r).wcount = s.wcount := by simp [h]

theorem State.complete_len_of_eq_none (s : State) {r : Result} (h : r.len = none) :
    (s.complete r).len = s.len := by simp [h]

/-- Settles O5: every command is one completion step, and a completion writes none of these fields. -/
theorem everyCommandCompletes : Obligations.EveryCommandCompletes := by
  unfold Obligations.EveryCommandCompletes
  intro i s
  exact ⟨_, exec_eq_complete i s, by simp⟩

/-- Settles O6: each clause is the frame of the rules it names. -/
theorem commandsWriteOnlyTheirRegisters : Obligations.CommandsWriteOnlyTheirRegisters := by
  unfold Obligations.CommandsWriteOnlyTheirRegisters
  intro i s t hexec
  obtain rfl := exec_eq_next_iff.1 hexec
  refine ⟨fun hk he hd => ?_, ?_, ?_, ?_, ?_⟩
  · simp [ruleOf_nkey_eq_none _ _ hk he hd]
  · rintro (rfl | rfl)
    · rfl
    · exact s.complete_data_of_writes_eq_nil (keynormRule_frame _).1
  · have hframe : ∀ r : Result, r.wcount = none ∧ r.len = none →
        (s.complete r).wcount = s.wcount ∧ (s.complete r).len = s.len :=
      fun r h => ⟨s.complete_wcount_of_eq_none h.1, s.complete_len_of_eq_none h.2⟩
    rintro (rfl | rfl | rfl | rfl)
    · exact ⟨rfl, rfl⟩
    · exact hframe _ (keynormRule_frame _).2
    · exact hframe _ (mixRule_frame _ _ _).2
    · exact hframe _ (mixRule_frame _ _ _).2
  · rintro wl rfl
    exact s.complete_len_of_eq_none (encodeRule_frame _ wl _).2
  · rintro wl rfl herr
    obtain ⟨hwrites, hwcount⟩ := (decodeRule_frame _ wl _).2 herr
    exact ⟨s.complete_data_of_writes_eq_nil hwrites, s.complete_wcount_of_eq_none hwcount⟩

end Sys2Proof.Machine
end

