-- ==== Sys2Proof/Proofs/Registers.lean ====
section
/-! PROOF. What a read and a write of each location do (10_state.md R24 to R42). -/

namespace Sys2Proof.Machine

/-! ### The two classes of locations -/

theorem volatileLoc_iff (t : Loc) :
    volatileLoc t = true ↔
      t = .len ∨ t = .wcount ∨ t = .nkey0 ∨ t = .nkey1 ∨ t = .nkey2 ∨ t = .nkey3 ∨ ∃ w, t = .data w := by
  cases t <;> simp [volatileLoc]

theorem volatileLoc_eq_false_iff (t : Loc) :
    volatileLoc t = false ↔
      t = .status ∨ t = .irqEn ∨ t = .keyLen ∨ t = .key0 ∨ t = .key1 ∨ t = .key2 ∨ t = .key3 ∨ t = .cap ∨ t = .cmd ∨
        t = .reserved := by
  cases t <;> simp [volatileLoc]

theorem frozenLoc_iff (t : Loc) :
    frozenLoc t = true ↔
      t = .cmd ∨ t = .keyLen ∨ t = .key0 ∨ t = .key1 ∨ t = .key2 ∨ t = .key3 ∨ t = .len ∨ t = .wcount ∨
        ∃ w, t = .data w := by
  cases t <;> simp [frozenLoc]

/-- The read-only locations: a write that takes effect there has none, and none is ever dropped (10_state.md R33, R36,
R37). -/
theorem readOnlyLoc_spec {t : Loc}
    (ht : t = .nkey0 ∨ t = .nkey1 ∨ t = .nkey2 ∨ t = .nkey3 ∨ t = .cap ∨ t = .reserved) :
    frozenLoc t = false ∧ ∀ (s : State) (v : Word), s.writeLoc t v = s := by
  rcases ht with rfl | rfl | rfl | rfl | rfl | rfl <;> exact ⟨rfl, fun _ _ => rfl⟩

/-! ### Busy accesses -/

/-- Settles O38: the volatile locations answer the draw, the others their exact value. -/
theorem readsWhileBusy : Obligations.ReadsWhileBusy := by
  unfold Obligations.ReadsWhileBusy
  intro s t hp hbusy ht
  refine ⟨fun hvolatile => ?_, fun hexact => ?_⟩
  · obtain ⟨l, hl⟩ := Option.isSome_iff_exists.1 hbusy
    exact ⟨l, hl, s.memRead_addrOf_draw t hp ht hl ((volatileLoc_iff t).2 hvolatile)⟩
  · exact s.memRead_addrOf_exact t hp ht (.inr ((volatileLoc_eq_false_iff t).2 hexact))

/-- Settles O39: the frozen locations drop the write, the others take it. -/
theorem writesWhileBusy : Obligations.WritesWhileBusy := by
  unfold Obligations.WritesWhileBusy
  intro s t v hp hbusy ht
  refine ⟨fun hfrozen => ?_, ?_, ?_, fun hreadOnly => ?_⟩
  · exact s.memWrite_addrOf_dropped t v hp ht hbusy ((frozenLoc_iff t).2 hfrozen)
  · rintro rfl
    exact s.memWrite_addrOf_okay .status v hp ht (.inr rfl)
  · rintro rfl
    exact s.memWrite_addrOf_okay .irqEn v hp ht (.inr rfl)
  · obtain ⟨hnot, hkeep⟩ := readOnlyLoc_spec hreadOnly
    rw [s.memWrite_addrOf_okay t v hp ht (.inr hnot), hkeep]

/-! ### A read after a write on an idle engine

The plain read/write locations are the frozen ones other than CMD. -/

@[simp] theorem State.addrOf_writeLoc (s : State) (t u : Loc) (v : Word) : (s.writeLoc t v).addrOf u = s.addrOf u := by
  simp [State.addrOf]

/-- A plain location reads back what was written to it. -/
theorem State.readLoc_writeLoc_same (s : State) {t : Loc} (v : Word) (ht : frozenLoc t = true) (hcmd : t ≠ .cmd) :
    (s.writeLoc t v).readLoc t = v := by
  cases t with
  | cmd => exact absurd rfl hcmd
  | keyLen | key0 | key1 | key2 | key3 | len | wcount => rfl
  | data w => exact (Data.word_writeAll_wordCells s.data w v w).trans (if_pos rfl)
  | status | irqEn | nkey0 | nkey1 | nkey2 | nkey3 | cap | reserved => simp [frozenLoc] at ht

/-- A write to a data word changes no other location. -/
theorem State.readLoc_writeLoc_data_of_ne (s : State) {u : Loc} {w : Nat} (v : Word) (hu : u ≠ .data w) :
    (s.writeLoc (.data w) v).readLoc u = s.readLoc u := by
  cases u with
  | data j =>
    have hj : j ≠ w := fun h => hu (congrArg Loc.data h)
    exact (Data.word_writeAll_wordCells s.data w v j).trans (if_neg hj)
  | _ => rfl

/-- A write to a plain location changes no other location. -/
theorem State.readLoc_writeLoc_of_ne (s : State) {t u : Loc} (v : Word) (ht : frozenLoc t = true) (hcmd : t ≠ .cmd)
    (hu : u ≠ t) : (s.writeLoc t v).readLoc u = s.readLoc u := by
  cases t with
  | cmd => exact absurd rfl hcmd
  | keyLen | key0 | key1 | key2 | key3 | len | wcount => cases u <;> simp at hu <;> rfl
  | data w => exact s.readLoc_writeLoc_data_of_ne v hu
  | status | irqEn | nkey0 | nkey1 | nkey2 | nkey3 | cap | reserved => simp [frozenLoc] at ht

/-- Settles O40: the write takes effect, the engine stays idle, and every read is then exact. -/
theorem idleReadAfterWrite : Obligations.IdleReadAfterWrite := by
  unfold Obligations.IdleReadAfterWrite
  intro s t v hp hidle hname hplain
  have ht : frozenLoc t = true := (frozenLoc_iff t).2 (.inr hplain)
  have hcmd : t ≠ .cmd := by rintro rfl; simp at hplain
  have hread : ∀ u : Loc, u.nameable s.params.wmax = true →
      (s.writeLoc t v).memRead (s.addrOf u) = (.value ((s.writeLoc t v).readLoc u), s.writeLoc t v) := by
    intro u hu
    have hidle' : (s.writeLoc t v).busy = false := by simpa [State.busy, s.writeLoc_latch v hcmd] using hidle
    rw [← s.addrOf_writeLoc t u v]
    exact (s.writeLoc t v).memRead_addrOf_exact u (by simpa using hp) (.inl (by simpa using hu)) (.inl hidle')
  refine ⟨s.writeLoc t v, s.memWrite_addrOf_okay t v hp (.inl hname) (.inl hidle), ?_, fun u hne hu => ?_⟩
  · rw [hread t hname, s.readLoc_writeLoc_same v ht hcmd]
  · rw [hread u hu, s.readLoc_writeLoc_of_ne v ht hcmd hne]

/-! ### Read-only and reserved locations -/

/-- Past CAP the register window is reserved (10_state.md R37). -/
theorem locAt_eq_reserved {off : Nat} (hlo : 0x03C ≤ off) (hhi : off ≤ 0xFFC) : locAt off = .reserved := by
  obtain ⟨k, hk⟩ : ∃ k, off / 4 = k + 15 := ⟨off / 4 - 15, by omega⟩
  rw [locAt, if_pos (by omega), hk]
  rfl

/-- Every aligned reserved offset lies in the region and decodes to the reserved location. -/
theorem State.reservedOffset_spec (s : State) {off : Nat} (hp : s.params.wf = true) (hlo : 0x03C ≤ off)
    (hhi : off ≤ 0xFFC) (hoff : off % 4 = 0) :
    s.inRegion (s.params.base + off) = true ∧ (s.params.base + off) % 4 = 0 ∧
      locAt (s.params.base + off - s.params.base) = .reserved := by
  have hbase := Params.base_mod_four hp
  have hlt : off < regionSize s.params.wmax := by simp only [regionSize]; omega
  refine ⟨by simp [State.inRegion, hlt], by omega, ?_⟩
  rw [Nat.add_sub_cancel_left]
  exact locAt_eq_reserved hlo hhi

theorem State.memRead_reserved (s : State) {off : Nat} (hp : s.params.wf = true) (hlo : 0x03C ≤ off)
    (hhi : off ≤ 0xFFC) (hoff : off % 4 = 0) : s.memRead (s.params.base + off) = (.value 0, s) := by
  obtain ⟨hin, hal, hloc⟩ := s.reservedOffset_spec hp hlo hhi hoff
  rw [State.memRead, hin, hloc]
  simp [hal, volatileLoc, State.readLoc]

theorem State.memWrite_reserved (s : State) {off : Nat} (v : Word) (hp : s.params.wf = true) (hlo : 0x03C ≤ off)
    (hhi : off ≤ 0xFFC) (hoff : off % 4 = 0) : s.memWrite (s.params.base + off) v = (.okay, s) := by
  obtain ⟨hin, hal, hloc⟩ := s.reservedOffset_spec hp hlo hhi hoff
  rw [State.memWrite, hin, hloc]
  simp [hal, frozenLoc, State.writeLoc]

/-- Settles O41: CAP, CMD and the reserved offsets are never volatile, and no write to a read-only location has an
effect. -/
theorem readOnlyAndReservedLocations : Obligations.ReadOnlyAndReservedLocations := by
  unfold Obligations.ReadOnlyAndReservedLocations
  refine ⟨fun s v hp => ⟨?_, ?_⟩, fun s off v hp hlo hhi hoff => ⟨?_, ?_⟩, ?_, fun s hp => ?_, fun s hp hidle => ?_⟩
  · exact s.memRead_addrOf_exact .cap hp (.inl rfl) (.inr rfl)
  · exact s.memWrite_addrOf_okay .cap v hp (.inl rfl) (.inr rfl)
  · exact s.memRead_reserved hp hlo hhi hoff
  · exact s.memWrite_reserved v hp hlo hhi hoff
  · rintro s t v hp (rfl | rfl | rfl | rfl) <;> exact s.memWrite_addrOf_okay _ v hp (.inl rfl) (.inr rfl)
  · exact s.memRead_addrOf_exact .cmd hp (.inl rfl) (.inr rfl)
  · have hread : ∀ t : Loc, t.nameable s.params.wmax = true → s.memRead (s.addrOf t) = (.value (s.readLoc t), s) :=
      fun t ht => s.memRead_addrOf_exact t hp (.inl ht) (.inl hidle)
    exact ⟨hread .nkey0 rfl, hread .nkey1 rfl, hread .nkey2 rfl, hread .nkey3 rfl⟩

/-! ### STATUS and IRQ_EN -/

/-- The fields of STATUS (10_state.md R25), bit by bit. -/
theorem State.getLsbD_statusWord (s : State) (i : Nat) :
    s.statusWord.getLsbD i =
      if i = 0 then s.busy else if i = 1 then s.done
      else if 4 ≤ i ∧ i ≤ 6 then s.err.bits.getLsbD (i - 4)
      else if i = 8 then s.werr else false := by
  simp only [State.statusWord, BitVec.getLsbD_append, BitVec.getLsbD_ofBool, BitVec.getLsbD_zero,
    Nat.sub_sub]
  rcases Nat.lt_or_ge i 9 with hfield | hreserved
  · interval_cases i <;> simp
  · simp (disch := omega) only [if_neg]

/-- The fields of IRQ_EN (10_state.md R30), bit by bit. -/
theorem State.getLsbD_irqEnWord (s : State) (i : Nat) :
    s.irqEnWord.getLsbD i = if i = 0 then s.ie else false := by
  simp only [State.irqEnWord, BitVec.getLsbD_append, BitVec.getLsbD_ofBool, BitVec.getLsbD_zero]
  cases i <;> simp

/-- Settles O44: the read is exact and the write takes effect, busy or not. -/
theorem statusRegister : Obligations.StatusRegister := by
  unfold Obligations.StatusRegister
  intro s v hp
  refine ⟨?_, fun i _ => s.getLsbD_statusWord i, ?_, rfl⟩
  · exact s.memRead_addrOf_exact .status hp (.inl rfl) (.inr rfl)
  · exact s.memWrite_addrOf_okay .status v hp (.inl rfl) (.inr rfl)

/-- Settles O45: the read is exact and the write takes effect, busy or not. -/
theorem interruptEnableRegister : Obligations.InterruptEnableRegister := by
  unfold Obligations.InterruptEnableRegister
  intro s v hp
  refine ⟨⟨s.irqEnWord, ?_, ?_, fun i hi => ?_⟩, ?_, rfl, by simp [State.irq]⟩
  · exact s.memRead_addrOf_exact .irqEn hp (.inl rfl) (.inr rfl)
  · exact s.getLsbD_irqEnWord 0
  · rw [s.getLsbD_irqEnWord, if_neg (by omega)]
  · exact s.memWrite_addrOf_okay .irqEn v hp (.inl rfl) (.inr rfl)

end Sys2Proof.Machine
end

