-- ==== Sys2Proof/Proofs/StatusBits.lean ====
section
/-! PROOF. What moves BUSY, ERR and WERR over one step (10_state.md R26, R28, R29): first over a write, then over a
host step, then over every agent's turn. -/

namespace Sys2Proof.Machine

/-! ### The address of a location -/

/-- Every location but the reserved one has a single aligned offset (10_state.md R23). -/
theorem locOffset_locAt {off : Nat} (hoff : off % 4 = 0) (h : locAt off ≠ .reserved) :
    locOffset (locAt off) = off := by
  unfold locAt at h ⊢
  split
  · rename_i hlt
    rw [if_pos hlt] at h
    split at h
    case h_16 => exact absurd rfl h
    all_goals
      simp only [locOffset]
      omega
  · simp only [locOffset]
    omega

/-- An aligned address of the region that decodes to a named location is that location's address. -/
theorem State.eq_addrOf_of_locAt {s : State} {addr : Nat} {t : Loc} (hp : s.params.wf = true)
    (hin : s.inRegion addr = true) (hal : addr % 4 = 0) (hloc : locAt (addr - s.params.base) = t)
    (ht : t ≠ .reserved) : addr = s.addrOf t := by
  have hbase := Params.base_mod_four hp
  simp only [State.inRegion, Bool.and_eq_true, decide_eq_true_eq] at hin
  obtain ⟨hle, -⟩ := hin
  have hoff : locOffset (locAt (addr - s.params.base)) = addr - s.params.base :=
    locOffset_locAt (by omega) (hloc ▸ ht)
  rw [hloc] at hoff
  rw [State.addrOf, hoff]
  omega

/-! ### Writes that take effect -/

@[simp] theorem State.writeLoc_err (s : State) (t : Loc) (v : Word) : (s.writeLoc t v).err = s.err := by
  cases t <;> rfl

/-- Only a write to STATUS that takes effect touches WERR. -/
theorem State.writeLoc_werr (s : State) {t : Loc} (v : Word) (ht : t ≠ .status) : (s.writeLoc t v).werr = s.werr := by
  cases t with
  | status => exact absurd rfl ht
  | _ => rfl

/-! ### Bus writes -/

/-- A bus write leaves the latch, or is the acceptance of a command word by an idle engine (60_exceptions.md R184). -/
theorem State.memWrite_latch (s : State) (addr : Nat) (v : Word) (hp : s.params.wf = true) :
    (s.memWrite addr v).2.latch = s.latch ∨
    (s.busy = false ∧ addr = s.addrOf .cmd ∧ ∃ l, (s.memWrite addr v).2.latch = some l ∧ l.word = v) := by
  rcases s.memWrite_cases addr v with ⟨-, h⟩ | ⟨-, -, h⟩ | ⟨-, -, -, -, h⟩ | ⟨hin, hal, hfrozen, h⟩
  · exact .inl (by rw [h])
  · exact .inl (by rw [h])
  · exact .inl (by rw [h])
  · by_cases hcmd : locAt (addr - s.params.base) = .cmd
    · rw [hcmd] at hfrozen h
      have hidle : s.busy = false := by simpa [frozenLoc] using hfrozen
      exact .inr ⟨hidle, State.eq_addrOf_of_locAt hp hin hal hcmd (by simp), _, by rw [h]; rfl, rfl⟩
    · exact .inl (by rw [h]; exact s.writeLoc_latch v hcmd)

theorem State.memWrite_err (s : State) (addr : Nat) (v : Word) : (s.memWrite addr v).2.err = s.err := by
  rcases s.memWrite_cases addr v with ⟨-, h⟩ | ⟨-, -, h⟩ | ⟨-, -, -, -, h⟩ | ⟨-, -, -, h⟩ <;> simp [h]

/-- What a bus write does to WERR: nothing; or it is dropped and sets it; or it goes to STATUS and clears it by bit 8. -/
theorem State.memWrite_werr (s : State) (addr : Nat) (v : Word) (hp : s.params.wf = true) :
    (s.memWrite addr v).2.werr = s.werr ∨
    (s.busy = true ∧ s.inRegion addr = true ∧ frozenLoc (locAt (addr - s.params.base)) = true ∧
      (s.memWrite addr v).2.werr = true) ∨
    (addr = s.addrOf .status ∧ (s.memWrite addr v).2.werr = (s.werr && !v.getLsbD 8)) := by
  rcases s.memWrite_cases addr v with ⟨-, h⟩ | ⟨-, -, h⟩ | ⟨hin, -, hbusy, hfrozen, h⟩ | ⟨hin, hal, -, h⟩
  · exact .inl (by rw [h])
  · exact .inl (by rw [h])
  · exact .inr (.inl ⟨hbusy, hin, hfrozen, by rw [h]⟩)
  · by_cases hstatus : locAt (addr - s.params.base) = .status
    · rw [hstatus] at h
      exact .inr (.inr ⟨State.eq_addrOf_of_locAt hp hin hal hstatus (by simp), by rw [h]; rfl⟩)
    · exact .inl (by rw [h]; exact s.writeLoc_werr v hstatus)

/-! ### Host steps -/

/-- A host step leaves the latch, or is the acceptance of a command word by an idle engine. -/
theorem State.hostStep_latch (s : State) (hp : s.params.wf = true) :
    s.hostStep.latch = s.latch ∨
    (s.busy = false ∧ ∃ c rest l, s.host = .write (s.addrOf .cmd) c :: rest ∧ s.hostStep.latch = some l ∧
      l.word = c) := by
  rcases s.hostStep_cases with ⟨addr, v, rest, hhost, h⟩ | ⟨d, h, tr, f, heq⟩
  · rw [h, State.record_latch]
    rcases s.popHost.memWrite_latch addr v hp with hkeep | ⟨hidle, rfl, l, hl, hw⟩
    · exact .inl hkeep
    · exact .inr ⟨hidle, v, rest, l, hhost, hl, hw⟩
  · exact .inl (by rw [heq])

@[simp] theorem State.hostStep_err (s : State) : s.hostStep.err = s.err := by
  rcases s.hostStep_cases with ⟨addr, v, -, -, h⟩ | ⟨d, h, tr, f, heq⟩
  · rw [h, State.record_err]
    exact s.popHost.memWrite_err addr v
  · rw [heq]

/-- What a host step does to WERR: nothing; or its write is dropped and sets it; or it writes STATUS and clears it by
bit 8. -/
theorem State.hostStep_werr (s : State) (hp : s.params.wf = true) :
    s.hostStep.werr = s.werr ∨
    (s.busy = true ∧ s.hostStep.werr = true ∧ ∃ addr v rest, s.host = .write addr v :: rest ∧
      s.inRegion addr = true ∧ frozenLoc (locAt (addr - s.params.base)) = true) ∨
    (∃ v rest, s.host = .write (s.addrOf .status) v :: rest ∧ s.hostStep.werr = (s.werr && !v.getLsbD 8)) := by
  rcases s.hostStep_cases with ⟨addr, v, rest, hhost, h⟩ | ⟨d, h, tr, f, heq⟩
  · rw [h, State.record_werr]
    rcases s.popHost.memWrite_werr addr v hp with hkeep | ⟨hbusy, hin, hfrozen, hset⟩ | ⟨rfl, hclear⟩
    · exact .inl hkeep
    · exact .inr (.inl ⟨hbusy, hset, addr, v, rest, hhost, hin, hfrozen⟩)
    · exact .inr (.inr ⟨v, rest, hhost, hclear⟩)
  · exact .inl (by rw [heq])

/-! ### The step -/

/-- What a step does to BUSY, turn by turn: a completion or a reset may clear it, an acceptance raises it. -/
theorem step_busy {s t : State} (hp : s.params.wf = true) (hstep : step s = .next t) :
    t.busy = s.busy ∨
    (t.busy = false ∧ (s.nextTurn = .complete ∨ s.nextTurn = .reset)) ∨
    (s.busy = false ∧ s.nextTurn = .host ∧
      ∃ c rest l, s.host = .write (s.addrOf .cmd) c :: rest ∧ t.latch = some l ∧ l.word = c) := by
  rcases step_cases hstep with ⟨ht, rfl⟩ | ⟨-, rfl⟩ | ⟨ht, rfl⟩ | ⟨-, -, rfl⟩ | ⟨ht, l, i, -, -, rfl⟩ |
    ⟨ht, l, e, -, -, rfl⟩
  · rcases s.popTurn.hostStep_latch hp with hkeep | ⟨hidle, haccept⟩
    · exact .inl (congrArg Option.isSome hkeep)
    · exact .inr (.inr ⟨hidle, ht, haccept⟩)
  · exact .inl (by simp)
  · exact .inr (.inl ⟨rfl, .inr ht⟩)
  · exact .inl rfl
  · exact .inr (.inl ⟨rfl, .inl ht⟩)
  · exact .inr (.inl ⟨rfl, .inl ht⟩)

/-- Settles O54: the three cases of `step_busy`, read for a rise and for a fall. -/
theorem busyFollowsAcceptanceAndCompletion : Obligations.BusyFollowsAcceptanceAndCompletion := by
  unfold Obligations.BusyFollowsAcceptanceAndCompletion
  intro s t hp hstep
  rcases step_busy hp hstep with hkeep | ⟨hfall, hturn⟩ | ⟨hidle, haccept⟩
  · exact ⟨fun h0 h1 => by simp [hkeep, h0] at h1, fun h1 h0 => by simp [hkeep, h1] at h0⟩
  · exact ⟨fun _ h1 => by simp [hfall] at h1, fun _ _ => hturn⟩
  · exact ⟨fun _ _ => haccept, fun h1 _ => by simp [hidle] at h1⟩

/-- ERR keeps its value in every step but a completion and a reset. -/
theorem step_err {s t : State} (hstep : step s = .next t) :
    t.err = s.err ∨ (s.nextTurn = .complete ∧ s.busy = true) ∨ s.nextTurn = .reset := by
  rcases step_cases hstep with ⟨-, rfl⟩ | ⟨-, rfl⟩ | ⟨ht, -⟩ | ⟨-, -, rfl⟩ | ⟨ht, l, i, hl, -⟩ | ⟨ht, l, e, hl, -⟩
  · exact .inl (by simp)
  · exact .inl (by simp)
  · exact .inr (.inr ht)
  · exact .inl rfl
  · exact .inr (.inl ⟨ht, by simp [State.busy, hl]⟩)
  · exact .inr (.inl ⟨ht, by simp [State.busy, hl]⟩)

/-- WERR keeps its value in every step but a reset and the host's two kinds of write. -/
theorem step_werr {s t : State} (hp : s.params.wf = true) (hstep : step s = .next t) :
    t.werr = s.werr ∨
    (s.nextTurn = .reset ∧ t.werr = false) ∨
    (s.nextTurn = .host ∧ s.busy = true ∧ t.werr = true ∧ ∃ addr v rest, s.host = .write addr v :: rest ∧
      s.inRegion addr = true ∧ frozenLoc (locAt (addr - s.params.base)) = true) ∨
    (s.nextTurn = .host ∧ ∃ v rest, s.host = .write (s.addrOf .status) v :: rest ∧
      t.werr = (s.werr && !v.getLsbD 8)) := by
  rcases step_cases hstep with ⟨ht, rfl⟩ | ⟨-, rfl⟩ | ⟨ht, rfl⟩ | ⟨-, -, rfl⟩ | ⟨-, l, i, -, -, rfl⟩ |
    ⟨-, l, e, -, -, rfl⟩
  · rcases s.popTurn.hostStep_werr hp with hkeep | ⟨hbusy, hset, hdropped⟩ | hstatus
    · exact .inl hkeep
    · exact .inr (.inr (.inl ⟨ht, hbusy, hset, hdropped⟩))
    · exact .inr (.inr (.inr ⟨ht, hstatus⟩))
  · exact .inl (by simp)
  · exact .inr (.inl ⟨ht, rfl⟩)
  · exact .inl rfl
  · exact .inl rfl
  · exact .inl rfl

/-- Settles O56: ERR by `step_err`; WERR by the cases of `step_werr`, read for a rise and for a fall. -/
theorem errAndWerrWriters : Obligations.ErrAndWerrWriters := by
  unfold Obligations.ErrAndWerrWriters
  intro s t hp hstep
  refine ⟨(step_err hstep).resolve_left, fun h0 h1 => ?_, fun h1 h0 => ?_⟩
  · rcases step_werr hp hstep with hkeep | ⟨-, hclear⟩ | ⟨hturn, hbusy, -, hdropped⟩ | ⟨-, v, rest, -, hclear⟩
    · simp [hkeep, h0] at h1
    · simp [hclear] at h1
    · exact ⟨hturn, hbusy, hdropped⟩
    · simp [hclear, h0] at h1
  · rcases step_werr hp hstep with hkeep | ⟨hturn, -⟩ | ⟨-, -, hset, -⟩ | ⟨hturn, v, rest, hhost, hclear⟩
    · simp [hkeep, h1] at h0
    · exact .inl hturn
    · simp [hset] at h0
    · have hbit : v.getLsbD 8 = true := by simpa [hclear, h1] using h0
      exact .inr ⟨hturn, v, rest, hhost, hbit⟩

end Sys2Proof.Machine
end

