-- ==== Sys2Proof/Proofs/BusRegion.lean ====
section
/-! PROOF. The accesses that reach no location: outside the region (20_memory.md R51), and misaligned inside it
(R54). Each answer is the one case of `memRead_cases` or `memWrite_cases` that the address leaves. -/

namespace Sys2Proof.Machine

/-! ### Outside the region -/

/-- The bounds of R51. -/
theorem State.inRegion_iff (s : State) (addr : Nat) :
    s.inRegion addr = true ↔ s.params.base ≤ addr ∧ addr < s.params.base + 0x1000 + 4 * s.params.wmax := by
  simp only [State.inRegion, Bool.and_eq_true, decide_eq_true_eq]
  rw [regionSize, Nat.add_assoc]

theorem State.memRead_of_not_inRegion (s : State) {addr : Nat} (hout : s.inRegion addr = false) :
    s.memRead addr = (.elsewhere, s) := by
  rcases s.memRead_cases addr with ⟨-, h⟩ | ⟨hin, -⟩ | ⟨hin, -⟩ | ⟨hin, -⟩
  · exact h
  all_goals simp [hout] at hin

theorem State.memWrite_of_not_inRegion (s : State) {addr : Nat} (v : Word) (hout : s.inRegion addr = false) :
    s.memWrite addr v = (.elsewhere, s) := by
  rcases s.memWrite_cases addr v with ⟨-, h⟩ | ⟨hin, -⟩ | ⟨hin, -⟩ | ⟨hin, -⟩
  · exact h
  all_goals simp [hout] at hin

/-- Settles O43: the bounds of the region, and the two accesses outside it. -/
theorem accessOutsideTheRegionDoesNotReachTheEngine : Obligations.AccessOutsideTheRegionDoesNotReachTheEngine := by
  unfold Obligations.AccessOutsideTheRegionDoesNotReachTheEngine
  intro s addr v
  exact ⟨s.inRegion_iff addr, fun hout => ⟨s.memRead_of_not_inRegion hout, s.memWrite_of_not_inRegion v hout⟩⟩

/-! ### Misaligned addresses of the region -/

theorem State.memRead_misaligned (s : State) {addr : Nat} (hin : s.inRegion addr = true) (hmis : addr % 4 ≠ 0) :
    s.memRead addr = (.error, s) := by
  rcases s.memRead_cases addr with ⟨hout, -⟩ | ⟨-, -, h⟩ | ⟨-, hal, -⟩ | ⟨-, hal, -⟩
  · simp [hin] at hout
  · exact h
  all_goals exact absurd hal hmis

theorem State.memWrite_misaligned (s : State) {addr : Nat} (v : Word) (hin : s.inRegion addr = true)
    (hmis : addr % 4 ≠ 0) : s.memWrite addr v = (.error, s) := by
  rcases s.memWrite_cases addr v with ⟨hout, -⟩ | ⟨-, -, h⟩ | ⟨-, hal, -⟩ | ⟨-, hal, -⟩
  · simp [hin] at hout
  · exact h
  all_goals exact absurd hal hmis

/-- Settles O42: the two misaligned accesses, and the value an ERROR response carries. -/
theorem misalignedAccessIsABusError : Obligations.MisalignedAccessIsABusError := by
  unfold Obligations.MisalignedAccessIsABusError
  intro s addr v hin hmis
  exact ⟨s.memRead_misaligned hin hmis, s.memWrite_misaligned v hin hmis, rfl⟩

end Sys2Proof.Machine
end

