-- ==== Sys2Proof/Proofs/Encoding.lean ====
section
/-! PROOF. Command words (30_encoding.md R70 to R75). A word is its three fields; the decoder reads the table of
opcodes off them, and the encoder writes them, so a word decodes to a command exactly when it is that command's
encoding. Everything else here follows from that. -/

namespace Sys2Proof

/-! ### Words and their fields -/

/-- The three fields of R70 cover the word. -/
theorem eq_of_fields_eq {c d : Word} (hreserved : reservedField c = reservedField d) (hwl : wlField c = wlField d)
    (hop : opField c = opField d) : c = d := by
  apply BitVec.eq_of_getLsbD_eq
  intro i hi
  rcases Nat.lt_trichotomy i 4 with hlt | rfl | hgt
  · have h := congrArg (·.getLsbD i) hop
    simpa [opField, hlt] using h
  · exact hwl
  · have h := congrArg (·.getLsbD (i - 5)) hreserved
    simpa [reservedField, show i - 5 < 27 by omega, show 5 + (i - 5) = i by omega] using h

/-- Every encoding is a legal word with the command's own fields. -/
theorem encode_legal (i : Instr) : Laws.EncodeLegal.Statement i := by
  cases i with
  | nop => exact Laws.EncodeLegal.nop
  | encrypt => exact Laws.EncodeLegal.encrypt
  | decrypt => exact Laws.EncodeLegal.decrypt
  | keynorm => exact Laws.EncodeLegal.keynorm
  | encode wl => exact Laws.EncodeLegal.encode wl
  | decode wl => exact Laws.EncodeLegal.decode wl
  | mixf => exact Laws.EncodeLegal.mixf
  | mixr => exact Laws.EncodeLegal.mixr

theorem eq_encode_iff {c : Word} {i : Instr} :
    c = encode i ↔ reservedField c = 0 ∧ opField c = opOf i ∧ wlField c = wlOf i := by
  obtain ⟨-, hreserved, hop, hwl⟩ := encode_legal i
  constructor
  · rintro rfl
    exact ⟨hreserved, hop, hwl⟩
  · rintro ⟨hreserved', hop', hwl'⟩
    exact eq_of_fields_eq (hreserved'.trans hreserved.symm) (hwl'.trans hwl.symm) (hop'.trans hop.symm)

/-! ### The decoder -/

/-- The opcode map (R71) gives a command for that command's `OP` and `WL`, and for no others. -/
theorem decodeFields_eq_ok_iff {op : Nat} {wl : Bool} {i : Instr} :
    decodeFields op wl = .ok i ↔ op = (opOf i).toNat ∧ wl = wlOf i := by
  constructor
  · intro h
    unfold decodeFields at h
    split at h
    case h_9 => split at h <;> cases h
    all_goals
      cases h
      exact ⟨rfl, rfl⟩
  · rintro ⟨rfl, rfl⟩
    cases i <;> rfl

/-- The decoder inverts the encoder, and gives no other word a command. -/
theorem decode_eq_ok_iff {c : Word} {i : Instr} : decode c = .ok i ↔ c = encode i := by
  rw [eq_encode_iff, decode]
  split
  · rename_i hreserved
    rw [decodeFields_eq_ok_iff, BitVec.toNat_inj]
    exact (and_iff_right hreserved).symm
  · rename_i hreserved
    exact iff_of_false (by simp) fun h => hreserved h.1

/-- Settles O3: both halves are `decode_eq_ok_iff`. -/
theorem decodeAndEncodeAgree : Obligations.DecodeAndEncodeAgree := by
  unfold Obligations.DecodeAndEncodeAgree
  exact ⟨fun _ _ => decode_eq_ok_iff.2 rfl, fun _ _ h => (decode_eq_ok_iff.1 h).symm⟩

/-! ### The table -/

/-- The rows of R72 are the encodings of the commands. -/
theorem mem_commandTable_iff {c : Word} {i : Instr} : (c, i) ∈ commandTable ↔ c = encode i := by
  cases i with
  | encode wl | decode wl => cases wl <;> simp [commandTable, encode, opOf, wlOf]
  | nop | encrypt | decrypt | keynorm | mixf | mixr => simp [commandTable, encode, opOf, wlOf]

/-- Settles O2: the words that decode and the rows of the table are both the encodings. -/
theorem exactlyTenWordsAreCommands : Obligations.ExactlyTenWordsAreCommands := by
  unfold Obligations.ExactlyTenWordsAreCommands
  intro c i
  rw [decode_eq_ok_iff, mem_commandTable_iff]

/-- Settles O1: one direction of `exactlyTenWordsAreCommands`. -/
theorem tableWordsDecode : Obligations.TableWordsDecode := by
  unfold Obligations.TableWordsDecode
  rintro ⟨c, i⟩ hrow
  exact (exactlyTenWordsAreCommands c i).2 hrow

/-! ### Legality -/

/-- The part of R75's formula about `OP` and `WL` says which entries of the opcode map are commands: a closed fact
about its 32 entries. -/
theorem isOk_decodeFields_iff :
    ∀ (op : BitVec 4) (wl : Bool),
      (decodeFields op.toNat wl).isOk = true ↔ op.toNat ≤ 7 ∧ (wl = false ∨ op = 4 ∨ op = 5) := by
  decide

theorem legalWord_iff (c : Word) :
    legalWord c = true ↔
      reservedField c = 0 ∧ (opField c).toNat ≤ 7 ∧ (wlField c = false ∨ opField c = 4 ∨ opField c = 5) := by
  simp [legalWord, reservedField, opField, wlField, and_assoc, or_assoc]

/-- R75's formula describes the words that decode. -/
theorem legalWord_iff_exists_decode (c : Word) : legalWord c = true ↔ ∃ i, decode c = .ok i := by
  rw [legalWord_iff, ← isOk_decodeFields_iff, decode]
  split
  · rename_i hreserved
    cases decodeFields (opField c).toNat (wlField c) <;> simp [hreserved, Except.isOk, Except.toBool]
  · rename_i hreserved
    exact iff_of_false (fun h => hreserved h.1) (by simp)

end Sys2Proof

namespace Sys2Proof.Machine

/-- Completing with an error that asks for no write changes only BUSY, DONE and ERR (60_exceptions.md R182). -/
theorem State.complete_raise (s : State) (code : ResultCode) : s.complete (Result.raise code) = s.finished code := rfl

/-- The completion step of an illegal word (R75). -/
theorem execWord_of_not_legalWord {c : Word} (s : State) (hc : legalWord c = false) :
    execWord c s = .next (s.finished .illegalCmd) := by
  rcases execWord_eq c s with ⟨i, hi, -⟩ | ⟨-, -, h⟩
  · simp [(legalWord_iff_exists_decode c).2 ⟨i, hi⟩] at hc
  · rw [h, illegalRule, s.complete_raise]

/-- Settles O4: legality is decoding, and the word just accepted is the one the completion step runs. -/
theorem illegalWordsCompleteWithoutEffect : Obligations.IllegalWordsCompleteWithoutEffect := by
  unfold Obligations.IllegalWordsCompleteWithoutEffect
  exact ⟨legalWord_iff_exists_decode, fun s c hc => ⟨s.busy_accept c, execWord_of_not_legalWord (s.accept c) hc⟩⟩

end Sys2Proof.Machine
end

