-- ==== Sys2Proof/Proofs/Scripts.lean ====
section
/-! PROOF. The pseudo-instructions of host scripts (30_encoding.md R80): WAIT is one read, and WRB and WRK are runs of
bus writes, which on an idle engine all take effect, one host step each. -/

namespace Sys2Proof.Machine

/-! ### WAIT -/

/-- A host step at WAIT: STATUS reads exactly, busy or not, and bit 0 of what it answers is BUSY (10_state.md R25). -/
theorem State.hostStep_wait {s : State} {rest : List HostOp} (hp : s.params.wf = true)
    (hhost : s.host = .wait :: rest) :
    s.hostStep =
      { s with host := if s.busy then .wait :: rest else rest, trace := .value s.statusWord :: s.trace } := by
  have hread : s.memRead (s.addrOf .status) = (.value s.statusWord, s) :=
    s.memRead_addrOf_exact .status hp (.inl rfl) (.inr rfl)
  have hbusy : s.statusWord.getLsbD 0 = s.busy := s.getLsbD_statusWord 0
  simp only [State.hostStep, hhost, hread, Response.data, hbusy]
  cases s.busy <;> simp [State.record, State.popHost, hhost]

/-- Settles O59: read off `hostStep_wait`. -/
theorem waitPollsUntilIdle : Obligations.WaitPollsUntilIdle := by
  unfold Obligations.WaitPollsUntilIdle
  intro s rest hp hhost
  rw [State.hostStep_wait hp hhost]
  exact ⟨rfl, fun hbusy => by simp [hbusy], fun hidle => by simp [hidle], rfl⟩

/-! ### Runs of writes -/

/-- The host operations that write values to locations, in order. -/
def writeOps (base : Nat) (ws : List (Loc × Word)) : List HostOp :=
  ws.map fun w => .write (base + locOffset w.1) w.2

/-- The writes themselves, each taking effect. -/
def State.writeLocs (s : State) (ws : List (Loc × Word)) : State := ws.foldl (fun t w => t.writeLoc w.1 w.2) s

@[simp] theorem writeOps_nil (base : Nat) : writeOps base [] = [] := rfl

@[simp] theorem writeOps_cons (base : Nat) (t : Loc) (v : Word) (ws : List (Loc × Word)) :
    writeOps base ((t, v) :: ws) = .write (base + locOffset t) v :: writeOps base ws := rfl

@[simp] theorem State.writeLocs_nil (s : State) : s.writeLocs [] = s := rfl

@[simp] theorem State.writeLocs_cons (s : State) (t : Loc) (v : Word) (ws : List (Loc × Word)) :
    s.writeLocs ((t, v) :: ws) = (s.writeLoc t v).writeLocs ws := rfl

/-- A write reads and moves nothing of the host's own. -/
theorem State.writeLoc_with_host (s : State) (t : Loc) (v : Word) (h : List HostOp) (tr : List Response) :
    { s with host := h, trace := tr }.writeLoc t v = { s.writeLoc t v with host := h, trace := tr } := by
  cases t <;> rfl

theorem State.writeLocs_with_host (s : State) (ws : List (Loc × Word)) (h : List HostOp) (tr : List Response) :
    { s with host := h, trace := tr }.writeLocs ws = { s.writeLocs ws with host := h, trace := tr } := by
  induction ws generalizing s with
  | nil => rfl
  | cons w ws ih => rw [State.writeLocs_cons, s.writeLoc_with_host, ih, State.writeLocs_cons]

/-- A host step at a write, on an idle engine. -/
theorem State.hostStep_write {s : State} {t : Loc} {v : Word} {rest : List HostOp} (hp : s.params.wf = true)
    (hidle : s.latch = none) (ht : t.nameable s.params.wmax = true)
    (hhost : s.host = .write (s.addrOf t) v :: rest) :
    s.hostStep = { s.writeLoc t v with host := rest, trace := .okay :: s.trace } := by
  have hwrite : s.popHost.memWrite (s.addrOf t) v = (.okay, s.popHost.writeLoc t v) :=
    s.popHost.memWrite_addrOf_okay t v hp (.inl ht) (.inl (by simp [State.busy, hidle]))
  have hpop : s.popHost = { s with host := rest, trace := s.trace } := by simp [State.popHost, hhost]
  simp only [State.hostStep, hhost, hwrite]
  rw [hpop, s.writeLoc_with_host]
  rfl

/-- The first of the repeated applications, taken off the front. -/
theorem repeat_succ_apply {α : Type} (f : α → α) (n : Nat) (a : α) :
    Nat.repeat f (n + 1) a = Nat.repeat f n (f a) := by
  induction n with
  | zero => rfl
  | succ n ih => exact congrArg f ih

/-- The host carries out a list of writes on an idle engine, one step each, if none of them starts a command. -/
theorem State.repeat_hostStep_writeOps {s : State} {ws : List (Loc × Word)} (hp : s.params.wf = true)
    (hidle : s.latch = none) (hws : ∀ w ∈ ws, w.1.nameable s.params.wmax = true ∧ w.1 ≠ .cmd)
    (hhost : s.host = writeOps s.params.base ws) :
    ∃ tr, Nat.repeat State.hostStep s.host.length s = { s.writeLocs ws with host := [], trace := tr } := by
  induction ws generalizing s with
  | nil =>
    rw [hhost]
    exact ⟨s.trace, by cases s; cases hhost; rfl⟩
  | cons w ws ih =>
    obtain ⟨t, v⟩ := w
    obtain ⟨⟨hname, hcmd⟩, hws⟩ := List.forall_mem_cons.1 hws
    have hstep := State.hostStep_write (rest := writeOps s.params.base ws) hp hidle hname hhost
    obtain ⟨tr, hrun⟩ := ih (s := s.hostStep) (by simpa [hstep] using hp)
      (by rw [hstep]; exact (s.writeLoc_latch v hcmd).trans hidle) (by simpa [hstep] using hws) (by simp [hstep])
    refine ⟨tr, ?_⟩
    have hlen : s.host.length = s.hostStep.host.length + 1 := by simp [hstep, hhost]
    rw [hlen, repeat_succ_apply, hrun, hstep, State.writeLocs_with_host, State.writeLocs_cons]

/-! ### Consecutive words

WRB and WRK write a list of words to the locations `loc i`, `loc (i + 1)`, and so on. -/

/-- The writes of a list of words to consecutive locations from `loc i`. -/
def wordWrites (loc : Nat → Loc) : Nat → List Word → List (Loc × Word)
  | _, [] => []
  | i, v :: vs => (loc i, v) :: wordWrites loc (i + 1) vs

theorem exists_of_mem_wordWrites {loc : Nat → Loc} {i : Nat} {vs : List Word} {w : Loc × Word}
    (h : w ∈ wordWrites loc i vs) : ∃ k, i ≤ k ∧ k < i + vs.length ∧ w.1 = loc k := by
  induction vs generalizing i with
  | nil => simp [wordWrites] at h
  | cons v vs ih =>
    rcases List.mem_cons.1 h with rfl | h
    · exact ⟨i, by simp⟩
    · obtain ⟨k, hlo, hhi, hk⟩ := ih h
      exact ⟨k, by omega, by simp only [List.length_cons]; omega, hk⟩

/-- A location none of the writes goes to keeps its value. -/
theorem State.readLoc_writeLocs_wordWrites_of_ne (s : State) {loc : Nat → Loc} {u : Loc} (i : Nat) (vs : List Word)
    (hplain : ∀ k, frozenLoc (loc k) = true ∧ loc k ≠ .cmd)
    (hne : ∀ k, i ≤ k → k < i + vs.length → u ≠ loc k) :
    (s.writeLocs (wordWrites loc i vs)).readLoc u = s.readLoc u := by
  induction vs generalizing s i with
  | nil => rfl
  | cons v vs ih =>
    simp only [List.length_cons] at hne
    obtain ⟨hfrozen, hcmd⟩ := hplain i
    calc ((s.writeLoc (loc i) v).writeLocs (wordWrites loc (i + 1) vs)).readLoc u
      _ = (s.writeLoc (loc i) v).readLoc u := ih _ _ fun k hlo hhi => hne k (by omega) (by omega)
      _ = s.readLoc u := s.readLoc_writeLoc_of_ne v hfrozen hcmd (hne i (by omega) (by omega))

/-- The location of each word reads back that word, if no later write goes to the same location. -/
theorem State.readLoc_writeLocs_wordWrites (s : State) {loc : Nat → Loc} {i j : Nat} {vs : List Word}
    (hplain : ∀ k, frozenLoc (loc k) = true ∧ loc k ≠ .cmd) (hlo : i ≤ j) (hhi : j < i + vs.length)
    (hinj : ∀ k, j < k → k < i + vs.length → loc j ≠ loc k) :
    (s.writeLocs (wordWrites loc i vs)).readLoc (loc j) = vs.getD (j - i) 0 := by
  induction vs generalizing s i with
  | nil => exact absurd hhi (Nat.not_lt.2 hlo)
  | cons v vs ih =>
    simp only [List.length_cons] at hhi hinj
    rcases Nat.eq_or_lt_of_le hlo with rfl | hlt
    · obtain ⟨hfrozen, hcmd⟩ := hplain i
      calc ((s.writeLoc (loc i) v).writeLocs (wordWrites loc (i + 1) vs)).readLoc (loc i)
        _ = (s.writeLoc (loc i) v).readLoc (loc i) :=
          State.readLoc_writeLocs_wordWrites_of_ne _ _ _ hplain fun k hlo hhi => hinj k (by omega) (by omega)
        _ = v := s.readLoc_writeLoc_same v hfrozen hcmd
        _ = (v :: vs).getD (i - i) 0 := by simp
    · rw [wordWrites, State.writeLocs_cons, ih _ (by omega) (by omega) fun k hk hhi => hinj k hk (by omega),
        show j - i = j - (i + 1) + 1 by omega, List.getD_cons_succ]

/-! ### WRB -/

theorem dataWrites_eq_writeOps (base w : Nat) (vs : List Word) :
    dataWrites base w vs = writeOps base (wordWrites .data w vs) := by
  induction vs generalizing w with
  | nil => rfl
  | cons v vs ih => rw [dataWrites, ih, wordWrites, writeOps_cons]

/-- The byte view and the word view (10_state.md R38). -/
theorem Data.byte_eq_byteOf_word (d : Data) (a : Nat) : d.byte a = byteOf (d.word (a / 4)) (a % 4) := by
  have hmod : a % 4 = 0 ∨ a % 4 = 1 ∨ a % 4 = 2 ∨ a % 4 = 3 := by omega
  rcases hmod with h | h | h | h <;> simp [Data.word, h] <;> congr 1 <;> omega

/-- The bytes after the words of WRB: those of the packed string, and all others as before. -/
theorem State.byte_writeLocs_wrb (s : State) (w : Nat) (bytes : List Byte) (a : Nat) :
    (s.writeLocs (wordWrites .data w (packWords bytes))).data.byte a =
      if 4 * w ≤ a ∧ a < 4 * w + 4 * ceil4 bytes.length then bytes.getD (a - 4 * w) 0 else s.data.byte a := by
  have hplain : ∀ k, frozenLoc (.data k) = true ∧ Loc.data k ≠ .cmd := fun _ => ⟨rfl, by simp⟩
  rw [Data.byte_eq_byteOf_word]
  split
  · have hword := s.readLoc_writeLocs_wordWrites (loc := .data) (i := w) (j := a / 4) (vs := packWords bytes) hplain
      (by omega) (by rw [length_packWords]; omega) fun k hk _ h => by cases h; omega
    calc byteOf ((s.writeLocs (wordWrites .data w (packWords bytes))).data.word (a / 4)) (a % 4)
      _ = byteOf ((packWords bytes).getD (a / 4 - w) 0) (a % 4) := congrArg (byteOf · (a % 4)) hword
      _ = bytes.getD (4 * (a / 4 - w) + a % 4) 0 := byteOf_packWords _ _ _ (by omega)
      _ = bytes.getD (a - 4 * w) 0 := by congr 1; omega
  · have hword := s.readLoc_writeLocs_wordWrites_of_ne (loc := .data) (u := .data (a / 4)) w (packWords bytes) hplain
      fun k hlo hhi h => by
        rw [length_packWords] at hhi
        cases h
        omega
    rw [Data.byte_eq_byteOf_word s.data]
    exact congrArg (byteOf · (a % 4)) hword

/-- WRB runs as its writes: a byte string that fits goes to words of the buffer. -/
theorem State.repeat_hostStep_wrb {s : State} {w : Nat} {bytes : List Byte} (hp : s.params.wf = true)
    (hidle : s.latch = none) (hwf : (ScriptLine.wrb w bytes).wf s.params.wmax = true)
    (hhost : s.host = expandLine s.params.base (.wrb w bytes)) :
    ∃ tr, Nat.repeat State.hostStep s.host.length s =
      { s.writeLocs (wordWrites .data w (packWords bytes)) with host := [], trace := tr } := by
  have hfit : w + ceil4 bytes.length ≤ s.params.wmax := by
    simp only [ScriptLine.wf, decide_eq_true_eq] at hwf
    rw [ceil4]
    omega
  refine State.repeat_hostStep_writeOps hp hidle (fun x hx => ?_) (hhost.trans (dataWrites_eq_writeOps _ _ _))
  obtain ⟨k, -, hk, hloc⟩ := exists_of_mem_wordWrites hx
  rw [length_packWords] at hk
  simp only [hloc, Loc.nameable, decide_eq_true_eq]
  exact ⟨by omega, by simp⟩

/-! ### WRK -/

/-- `KEY(i)` (10_state.md R32). -/
def keyLoc : Nat → Loc
  | 0 => .key0
  | 1 => .key1
  | 2 => .key2
  | _ => .key3

theorem State.readLoc_keyLoc (s : State) (i : Nat) : s.readLoc (keyLoc i) = s.key.get i := by
  match i with
  | 0 | 1 | 2 | _ + 3 => rfl

theorem keyLoc_nameable (wmax i : Nat) : (keyLoc i).nameable wmax = true := by
  match i with
  | 0 | 1 | 2 | _ + 3 => rfl

theorem keyLoc_plain (i : Nat) : frozenLoc (keyLoc i) = true ∧ keyLoc i ≠ .cmd := by
  match i with
  | 0 | 1 | 2 | _ + 3 => simp [keyLoc, frozenLoc]

theorem keyLoc_ne_keyLen (i : Nat) : keyLoc i ≠ .keyLen := by
  match i with
  | 0 | 1 | 2 | _ + 3 => simp [keyLoc]

theorem locOffset_keyLoc {i : Nat} (hi : i < 4) : locOffset (keyLoc i) = locOffset .key0 + 4 * i := by
  interval_cases i <;> rfl

/-- The four key words are different locations. -/
theorem keyLoc_ne {i j : Nat} (hij : i < j) (hj : j < 4) : keyLoc i ≠ keyLoc j := by
  intro h
  have hoff := congrArg locOffset h
  rw [locOffset_keyLoc (by omega), locOffset_keyLoc hj] at hoff
  omega

theorem keyWrites_eq_writeOps (base i : Nat) (vs : List Word) (hfit : i + vs.length ≤ 4) :
    keyWrites base i vs = writeOps base (wordWrites keyLoc i vs) := by
  induction vs generalizing i with
  | nil => rfl
  | cons v vs ih =>
    simp only [List.length_cons] at hfit
    rw [keyWrites, ih _ (by omega), wordWrites, writeOps_cons, locOffset_keyLoc (by omega), Nat.add_assoc]

/-- The writes of WRK: the length, then the words of the first sixteen bytes. -/
def wrkWrites (key : List Byte) : List (Loc × Word) :=
  (.keyLen, BitVec.ofNat 32 key.length) :: wordWrites keyLoc 0 (packWords (key.take 16))

/-- Sixteen bytes are at most four words. -/
theorem length_packWords_take_le (key : List Byte) : (packWords (key.take 16)).length ≤ 4 := by
  rw [length_packWords, List.length_take, ceil4]
  omega

theorem expandLine_wrk (base : Nat) (key : List Byte) :
    expandLine base (.wrk key) = writeOps base (wrkWrites key) := by
  rw [expandLine, keyWrites_eq_writeOps _ _ _ (by simpa using length_packWords_take_le key), wrkWrites, writeOps_cons]

theorem State.keyLen_writeLocs_wrkWrites (s : State) (key : List Byte) :
    (s.writeLocs (wrkWrites key)).keyLen = BitVec.ofNat 32 key.length :=
  State.readLoc_writeLocs_wordWrites_of_ne (s.writeLoc .keyLen _) (u := .keyLen) 0 _ keyLoc_plain
    fun k _ _ => (keyLoc_ne_keyLen k).symm

/-- Byte `i` of the key registers after WRK, for the bytes it writes. -/
theorem State.byte_writeLocs_wrkWrites (s : State) {key : List Byte} {i : Nat} (hi : i < min 16 key.length) :
    (s.writeLocs (wrkWrites key)).key.byte i = key.getD i 0 := by
  have hfour := length_packWords_take_le key
  have hword : (s.writeLocs (wrkWrites key)).readLoc (keyLoc (i / 4)) = (packWords (key.take 16)).getD (i / 4 - 0) 0 :=
    State.readLoc_writeLocs_wordWrites _ keyLoc_plain (Nat.zero_le _)
      (by rw [length_packWords, List.length_take, ceil4]; omega) fun k hk hhi => keyLoc_ne hk (by omega)
  calc byteOf ((s.writeLocs (wrkWrites key)).key.get (i / 4)) (i % 4)
    _ = byteOf ((packWords (key.take 16)).getD (i / 4) 0) (i % 4) := by
      rw [← State.readLoc_keyLoc, hword, Nat.sub_zero]
    _ = (key.take 16).getD (4 * (i / 4) + i % 4) 0 := byteOf_packWords _ _ _ (by omega)
    _ = key.getD i 0 := by
      rw [Nat.div_add_mod, List.getD_eq_getElem?_getD, List.getElem?_take_of_lt (by omega),
        List.getD_eq_getElem?_getD]

/-- WRK runs as its writes. -/
theorem State.repeat_hostStep_wrk {s : State} {key : List Byte} (hp : s.params.wf = true) (hidle : s.latch = none)
    (hhost : s.host = expandLine s.params.base (.wrk key)) :
    ∃ tr, Nat.repeat State.hostStep s.host.length s =
      { s.writeLocs (wrkWrites key) with host := [], trace := tr } := by
  refine State.repeat_hostStep_writeOps hp hidle (List.forall_mem_cons.2 ⟨⟨rfl, by simp⟩, fun x hx => ?_⟩)
    (hhost.trans (expandLine_wrk _ _))
  obtain ⟨k, -, -, hloc⟩ := exists_of_mem_wordWrites hx
  exact hloc ▸ ⟨keyLoc_nameable _ k, (keyLoc_plain k).2⟩

/-- Settles O60: the lines run as their writes, and the bytes are those the writes leave. -/
theorem scriptsPlaceBytesAndKeys : Obligations.ScriptsPlaceBytesAndKeys := by
  unfold Obligations.ScriptsPlaceBytesAndKeys
  refine ⟨fun s w bytes hp hidle hwf hhost => ⟨_, rfl, ?_⟩, fun s key hp hidle hwf hhost => ⟨_, rfl, ?_⟩⟩
  · obtain ⟨tr, hrun⟩ := State.repeat_hostStep_wrb hp hidle hwf hhost
    rw [hrun]
    exact ⟨rfl, s.byte_writeLocs_wrb w bytes⟩
  · obtain ⟨tr, hrun⟩ := State.repeat_hostStep_wrk hp hidle hhost
    have hlen : key.length < 2 ^ 32 := by simpa [ScriptLine.wf] using hwf
    rw [hrun]
    refine ⟨rfl, ?_, fun i hi => s.byte_writeLocs_wrkWrites hi⟩
    exact (congrArg BitVec.toNat (s.keyLen_writeLocs_wrkWrites key)).trans (Nat.mod_eq_of_lt hlen)

end Sys2Proof.Machine
end

