-- ==== Sys2Proof/Proofs/CodecFunctions.lean ====
section
/-! PROOF. The pure functions of the word codec (40_word_codec.md R105, R111) and their round trips. Decoding unpacks
the words and, with a length field, keeps as many bytes as the last word says; unpacking a packed string only appends its
pad bytes, so without the length field they stay, and with it they go. -/

namespace Sys2Proof.Machine

/-! ### The length check -/

/-- The bounds of R107 on naturals, written without subtraction below `nb`. -/
theorem lengthValid_iff (n m : Nat) : lengthValid n m = true ↔ 4 * (n - 1) ≤ m + 3 ∧ m ≤ 4 * (n - 1) := by
  simp [lengthValid]

/-- The exact length of a byte string is valid for its packed words and one length word. -/
theorem lengthValid_ceil4_succ (l : Nat) : lengthValid (ceil4 l + 1) l = true := by
  rw [lengthValid_iff, ceil4]
  omega

/-- A byte string fits the words counted for it, with at most three bytes to spare, the pad bytes of R113. -/
theorem four_mul_ceil4_sub (l : Nat) : 4 * ceil4 l - l = (4 - l % 4) % 4 := by
  rw [ceil4]
  omega

/-! ### Encoding -/

theorem wcEncode_false (b : List Byte) : wcEncode b false = packWords b := by simp [wcEncode]

@[simp] theorem wcEncode_nil (wl : Bool) : wcEncode [] wl = [] := by simp [wcEncode, packWords]

theorem wcEncode_true {b : List Byte} (hb : b ≠ []) :
    wcEncode b true = packWords b ++ [BitVec.ofNat 32 b.length] := by simp [wcEncode, hb]

/-! ### Decoding -/

@[simp] theorem wcDecode_nil (wl : Bool) : wcDecode [] wl = .ok [] := rfl

/-- R109: without a length field the output is all the bytes. -/
theorem wcDecode_false (v : List Word) : wcDecode v false = .ok (unpackWords v) := by
  cases v <;> rfl

/-- R111 with a length field, in terms of the engine's own length check. -/
theorem wcDecode_true {v : List Word} (hv : v ≠ []) :
    wcDecode v true =
      if lengthValid v.length (wordAt v (v.length - 1)).toNat then
        .ok ((unpackWords v).take (wordAt v (v.length - 1)).toNat)
      else .error .malformedLength := by
  simp [wcDecode, hv, lengthValid_iff]

/-! ### The round trips -/

theorem wordAt_append_singleton (v : List Word) (m : Word) : wordAt (v ++ [m]) v.length = m := by simp [wordAt]

/-- A length below 2^32 is what its length word reads as, so decoding keeps exactly the bytes that were packed. -/
theorem wcDecode_packWords_append_length {b : List Byte} (hb : b.length < 2 ^ 32) :
    wcDecode (packWords b ++ [BitVec.ofNat 32 b.length]) true = .ok b := by
  have hlast : wordAt (packWords b ++ [BitVec.ofNat 32 b.length]) (ceil4 b.length) = BitVec.ofNat 32 b.length := by
    rw [← length_packWords, wordAt_append_singleton]
  have hbytes : unpackWords (packWords b ++ [BitVec.ofNat 32 b.length]) =
      b ++ (List.replicate (4 * ceil4 b.length - b.length) 0 ++ wordBytes (BitVec.ofNat 32 b.length)) := by
    rw [unpackWords, List.flatMap_append, ← unpackWords, unpackWords_packWords, List.append_assoc]
    simp
  rw [wcDecode_true (by simp), List.length_append, length_packWords, List.length_singleton, Nat.add_sub_cancel,
    hlast, BitVec.toNat_ofNat, Nat.mod_eq_of_lt hb, if_pos (lengthValid_ceil4_succ _), hbytes, List.take_left]

/-- The greatest legal buffer (00_scope.md R7). -/
theorem Params.wmax_le {p : Params} (hp : p.wf = true) : p.wmax ≤ 2 ^ 20 := by
  simp only [Params.wf, Bool.and_eq_true, decide_eq_true_eq] at hp
  obtain ⟨⟨⟨-, hmax⟩, -⟩, -⟩ := hp
  exact hmax

/-- A byte string whose words fit in a buffer of legal size has a length that fits in a word (R103). -/
theorem Params.lt_two_pow_of_ceil4_le {p : Params} {l : Nat} (hp : p.wf = true) (hfit : ceil4 l ≤ p.wmax) :
    l < 2 ^ 32 := by
  have hmax := Params.wmax_le hp
  rw [ceil4] at hfit
  omega

/-- Settles O19: the length word is exact because the buffer bounds the length (R112). -/
theorem codecRoundTrip : Obligations.CodecRoundTrip := by
  unfold Obligations.CodecRoundTrip
  intro p b hp hfit
  by_cases hb : b = []
  · subst hb
    rw [wcEncode_nil, wcDecode_nil]
  · rw [wcEncode_true hb]
    exact wcDecode_packWords_append_length (Params.lt_two_pow_of_ceil4_le hp (by omega))

/-- Settles O20: unpacking a packed string appends its pad bytes, and no length field removes them (R113). -/
theorem codecRoundTripWithoutLengthKeepsPadBytes : Obligations.CodecRoundTripWithoutLengthKeepsPadBytes := by
  unfold Obligations.CodecRoundTripWithoutLengthKeepsPadBytes
  intro b
  rw [wcEncode_false, wcDecode_false, unpackWords_packWords, four_mul_ceil4_sub]

end Sys2Proof.Machine
end

