-- ==== Sys2Proof/Proofs/EncodeCommand.lean ====
section
/-! PROOF. ENCODE and ENCODE.L (40_word_codec.md R100 to R105). The command writes a list of cells, the pad bytes and
the length word; one lemma says what those cells leave in the buffer, and the obligations read it off. -/

namespace Sys2Proof.Machine

/-! ### Blocks and byte strings of one buffer -/

theorem Data.block_succ (d : Data) (n : Nat) : d.block (n + 1) = d.block n ++ [d.word n] := by
  simp [Data.block, List.range_succ]

/-- Two buffers that agree on their first words have the same block. -/
theorem Data.block_congr {d d' : Data} {n : Nat} (h : ∀ j < n, d.word j = d'.word j) : d.block n = d'.block n :=
  List.map_congr_left fun j hj => h j (List.mem_range.1 hj)

/-! ### What ENCODE writes -/

/-- The byte writes of ENCODE with the flag `wl` on `l` bytes (R100). -/
def encodedCells (l : Nat) (wl : Bool) : List Host.Cell := padCells l ++ (if wl && l != 0 then lengthCells l else [])

/-- The number of words ENCODE leaves (R102, R104). -/
def encodedCount (l : Nat) (wl : Bool) : Nat := if l = 0 then 0 else ceil4 l + wl.toNat

/-- An empty input has no pad byte and no length word (R104). -/
@[simp] theorem encodedCells_zero (wl : Bool) : encodedCells 0 wl = [] := by simp [encodedCells, padCells, ceil4]

@[simp] theorem encodedCount_zero (wl : Bool) : encodedCount 0 wl = 0 := rfl

theorem encodedCells_false (l : Nat) : encodedCells l false = padCells l := by simp [encodedCells]

theorem encodedCells_true {l : Nat} (hl : l ≠ 0) : encodedCells l true = padCells l ++ lengthCells l := by
  simp [encodedCells, hl]

theorem encodedCount_of_ne_zero {l : Nat} (hl : l ≠ 0) (wl : Bool) : encodedCount l wl = ceil4 l + wl.toNat :=
  if_neg hl

/-! ### The buffer after those writes -/

/-- Zeroing the pad bytes makes the first words the packing of the input bytes (R101): both unpack to the input bytes
followed by zeros. -/
theorem Data.block_writeAll_padCells (d : Data) (l : Nat) :
    (d.writeAll (padCells l)).block (ceil4 l) = packWords (d.bytes l) := by
  have hbytes : (d.writeAll (padCells l)).bytes (4 * ceil4 l) =
      d.bytes l ++ List.replicate (4 * ceil4 l - l) 0 := by
    have hle : l ≤ 4 * ceil4 l := by rw [ceil4]; omega
    apply List.ext_getElem (by simp; omega)
    intro i hi _
    rw [Data.length_bytes] at hi
    by_cases h : i < l
    · rw [List.getElem_append_left (by simpa using h)]
      simp [Data.bytes, Data.byte_writeAll_padCells, Nat.not_le.2 h]
    · rw [List.getElem_append_right (by simpa using h)]
      simp [Data.bytes, Data.byte_writeAll_padCells, Nat.not_lt.1 h, hi]
  calc (d.writeAll (padCells l)).block (ceil4 l)
    _ = packWords (unpackWords ((d.writeAll (padCells l)).block (ceil4 l))) := (packWords_unpackWords _).symm
    _ = packWords (unpackWords (packWords (d.bytes l))) := by
      rw [Data.unpackWords_block, hbytes, unpackWords_packWords, Data.length_bytes]
    _ = packWords (d.bytes l) := packWords_unpackWords _

/-- The length word stands right after the packed words (R103). -/
theorem Data.block_writeAll_padCells_lengthCells (d : Data) (l : Nat) :
    (d.writeAll (padCells l ++ lengthCells l)).block (ceil4 l + 1) =
      packWords (d.bytes l) ++ [BitVec.ofNat 32 l] := by
  have hword := (d.writeAll (padCells l)).word_writeAll_wordCells (ceil4 l) (BitVec.ofNat 32 l)
  have hpacked : ((d.writeAll (padCells l)).writeAll (wordCells (ceil4 l) (BitVec.ofNat 32 l))).block (ceil4 l) =
      (d.writeAll (padCells l)).block (ceil4 l) := Data.block_congr fun j hj => by rw [hword, if_neg hj.ne]
  rw [Data.writeAll_append, lengthCells, Data.block_succ, hword, if_pos rfl, hpacked, Data.block_writeAll_padCells]

/-- ENCODE leaves the encoding of the input bytes in the first words (R105). -/
theorem Data.block_writeAll_encodedCells (d : Data) (l : Nat) (wl : Bool) :
    (d.writeAll (encodedCells l wl)).block (encodedCount l wl) = wcEncode (d.bytes l) wl := by
  by_cases hl : l = 0
  · subst hl
    exact (wcEncode_nil wl).symm
  · have hne : d.bytes l ≠ [] := by
      rw [← List.length_pos_iff, Data.length_bytes]
      omega
    rw [encodedCount_of_ne_zero hl]
    cases wl with
    | false => rw [encodedCells_false, wcEncode_false, Bool.toNat_false, Nat.add_zero, Data.block_writeAll_padCells]
    | true =>
      rw [encodedCells_true hl, wcEncode_true hne, Bool.toNat_true, Data.block_writeAll_padCells_lengthCells,
        Data.length_bytes]

/-- ENCODE writes a pad byte, or a byte of the length word at its place after the packed words, and no other (R101). -/
theorem encodedCells_cases {l : Nat} {wl : Bool} {c : Host.Cell} (hc : c ∈ encodedCells l wl) :
    c ∈ padCells l ∨ (wl = true ∧ 4 * ceil4 l ≤ c.1 ∧ c.1 < 4 * ceil4 l + 4) := by
  rcases List.mem_append.1 hc with hpad | hlen
  · exact .inl hpad
  · cases hflag : wl && l != 0 with
    | false => simp [hflag] at hlen
    | true =>
      rw [hflag, if_pos rfl] at hlen
      obtain ⟨hword, -⟩ := mem_wordCells hlen
      exact .inr ⟨(Bool.and_eq_true_iff.1 hflag).1, by omega, by omega⟩

/-- Every pad byte is zero afterwards: the length word lies beyond them (R101). -/
theorem Data.byte_writeAll_encodedCells_pad (d : Data) {l a : Nat} (wl : Bool) (hlo : l ≤ a) (hhi : a < 4 * ceil4 l) :
    (d.writeAll (encodedCells l wl)).byte a = 0 := by
  have hpad : (a, 0) ∈ padCells l := mem_padCells.2 ⟨hlo, hhi, rfl⟩
  refine Data.byte_writeAll_of_mem _ _ ⟨_, List.mem_append_left _ hpad, rfl⟩ fun c hc ha => ?_
  rcases encodedCells_cases hc with hc | ⟨-, hbeyond, -⟩
  · exact (mem_padCells.1 hc).2.2
  · omega

/-- The input bytes, and the bytes beyond the pad bytes and the length word, are as before (R101). -/
theorem Data.byte_writeAll_encodedCells_frame (d : Data) {l a : Nat} {wl : Bool}
    (ha : a < l ∨ (4 * ceil4 l ≤ a ∧ (wl = true → 4 * ceil4 l + 4 ≤ a))) :
    (d.writeAll (encodedCells l wl)).byte a = d.byte a := by
  have hle : l ≤ 4 * ceil4 l := by rw [ceil4]; omega
  refine Data.byte_writeAll_of_notMem _ _ fun c hc hca => ?_
  rcases encodedCells_cases hc with hpad | ⟨hwl, hlo, hhi⟩
  · obtain ⟨hlo, hhi, -⟩ := mem_padCells.1 hpad
    omega
  · have hafter := ha.imp_right fun h => h.2 hwl
    omega

/-- The length word is the length (R103). -/
theorem Data.word_writeAll_encodedCells_true (d : Data) {l : Nat} (hl : l ≠ 0) :
    (d.writeAll (encodedCells l true)).word (ceil4 l) = BitVec.ofNat 32 l := by
  rw [encodedCells_true hl, Data.writeAll_append, lengthCells, Data.word_writeAll_wordCells, if_pos rfl]

/-! ### The command

The rule's own list of cells and its count are `encodedCells` and `encodedCount` by definition. -/

/-- R102: an encoding that does not fit raises CAPACITY and writes nothing. -/
theorem exec_encode_of_lt {s : State} {wl : Bool} (h : s.params.wmax < encodedCount s.operands.len.toNat wl) :
    exec (.encode wl) s = .next (s.finished .capacity) := by
  rw [exec_eq_complete, ruleOf, encodeRule]
  exact congrArg (fun r => Host.Outcome.next (s.complete r)) (if_pos h)

/-- R100: an encoding that fits writes its cells and WCOUNT. -/
theorem exec_encode_of_le {s : State} {wl : Bool} (h : encodedCount s.operands.len.toNat wl ≤ s.params.wmax) :
    exec (.encode wl) s = .next
      { s.finished .ok with
          data := s.data.writeAll (encodedCells s.operands.len.toNat wl)
          wcount := BitVec.ofNat 32 (encodedCount s.operands.len.toNat wl) } := by
  rw [exec_eq_complete, ruleOf, encodeRule]
  exact congrArg (fun r => Host.Outcome.next (s.complete r)) (if_neg (Nat.not_lt.2 h))

/-- Settles O14: the two outcomes of the command. The cells go over the buffer's own bytes, frozen snapshot or not. -/
theorem encodeComputesWcEncode : Obligations.EncodeComputesWcEncode := by
  unfold Obligations.EncodeComputesWcEncode
  intro wl s _
  exact ⟨exec_encode_of_lt, fun hfit => ⟨_, exec_encode_of_le hfit, rfl, s.data.block_writeAll_encodedCells _ wl⟩⟩

/-- Settles O15: the byte view after the writes, range by range; a buffer of legal size keeps the count exact. -/
theorem encodeWritesPadAndLengthOnly : Obligations.EncodeWritesPadAndLengthOnly := by
  unfold Obligations.EncodeWritesPadAndLengthOnly
  intro wl s hp
  dsimp only
  intro hl hfit
  have hcount := encodedCount_of_ne_zero hl wl
  have hmax := Params.wmax_le hp
  refine ⟨_, exec_encode_of_le (by omega), fun a => s.data.byte_writeAll_encodedCells_pad wl, ?_,
    fun a => s.data.byte_writeAll_encodedCells_frame⟩
  rintro rfl
  refine ⟨(s.data.word_writeAll_encodedCells_true hl).trans (by simp), ?_⟩
  rw [Bool.toNat_true] at hcount hfit
  dsimp only
  rw [hcount, BitVec.toNat_ofNat, Nat.mod_eq_of_lt (by omega)]

end Sys2Proof.Machine
end

