-- ==== Sys2Proof/Proofs/DecodeCommand.lean ====
section
/-! PROOF. DECODE and DECODE.L (40_word_codec.md R106 to R111, R114). The command makes the checks of `wc_decode` on the
words of the buffer; it writes LEN, or the scrub of MALFORMED_LENGTH. -/

namespace Sys2Proof.Machine

/-! ### `wc_decode` on the words of a buffer -/

theorem Data.block_ne_nil (d : Data) {n : Nat} (hn : n ≠ 0) : d.block n ≠ [] := by
  rw [← List.length_pos_iff, Data.length_block]
  omega

theorem Data.wordAt_block (d : Data) {n j : Nat} (hj : j < n) : wordAt (d.block n) j = d.word j := by
  simp [wordAt, Data.block, hj]

theorem Data.take_bytes (d : Data) {m n : Nat} (h : m ≤ n) : (d.bytes n).take m = d.bytes m := by
  rw [Data.bytes, ← List.map_take, List.take_range, Nat.min_eq_left h, Data.bytes]

/-- With a length field the output is the first bytes of the buffer, as many as the last word says (R107). -/
theorem Data.wcDecode_block_true (d : Data) {n : Nat} (hn : n ≠ 0) :
    wcDecode (d.block n) true =
      if lengthValid n (d.word (n - 1)).toNat then .ok (d.bytes (d.word (n - 1)).toNat)
      else .error .malformedLength := by
  rw [wcDecode_true (d.block_ne_nil hn), Data.length_block, d.wordAt_block (by omega), Data.unpackWords_block]
  split
  case isTrue hvalid =>
    obtain ⟨-, hmax⟩ := (lengthValid_iff _ _).1 hvalid
    rw [d.take_bytes (by omega)]
  case isFalse => rfl

/-! ### The scrub -/

/-- The byte view after the scrub of R108. -/
theorem Data.byte_writeAll_scrubCells (d : Data) (n a : Nat) :
    (d.writeAll (scrubCells n)).byte a = if a < 4 * n then 0 else d.byte a := by
  have hzero : (List.replicate n (0 : Word)).getD (a / 4) 0 = 0 := by
    rw [List.getD_eq_getElem?_getD, List.getElem?_replicate]
    split <;> rfl
  have hword : a / 4 < n ↔ a < 4 * n := by omega
  rw [scrubCells, Data.byte_writeAll_blockCells, Nat.sub_zero, hzero]
  simp [hword]

/-! ### The command, outcome by outcome -/

section Outcomes

variable {s : State}

/-- R106: a word count beyond the buffer raises CAPACITY and writes nothing. -/
theorem exec_decode_of_lt (wl : Bool) (h : s.params.wmax < s.operands.wcount.toNat) :
    exec (.decode wl) s = .next (s.finished .capacity) := by
  rw [exec_eq_complete, ruleOf, decodeRule]
  exact congrArg (fun r => Host.Outcome.next (s.complete r)) (if_pos h)

/-- R110: an empty word buffer has no length word to check. -/
theorem exec_decode_of_wcount_eq_zero (wl : Bool) (h : s.operands.wcount.toNat = 0) :
    exec (.decode wl) s = .next { s.finished .ok with len := 0 } := by
  rw [exec_eq_complete, ruleOf, decodeRule]
  simp only [h, Nat.not_lt_zero, gt_iff_lt, if_true, if_false]
  rfl

/-- R109: without a length field every byte of the words is output. -/
theorem exec_decode_false (h : s.operands.wcount.toNat ≤ s.params.wmax) :
    exec (.decode false) s =
      .next { s.finished .ok with len := BitVec.ofNat 32 (4 * s.operands.wcount.toNat) } := by
  by_cases h0 : s.operands.wcount.toNat = 0
  · rw [exec_decode_of_wcount_eq_zero false h0, h0]
    rfl
  · rw [exec_eq_complete, ruleOf, decodeRule]
    simp only [Nat.not_lt.2 h, h0, if_false, Bool.not_false, if_true]
    rfl

/-! With a length field, on a buffer that exists and is not empty. -/

variable (hpos : s.operands.wcount.toNat ≠ 0) (hfit : s.operands.wcount.toNat ≤ s.params.wmax)
include hpos hfit

/-- R107: a valid length word is the new LEN. -/
theorem exec_decode_true_of_valid
    (hvalid : lengthValid s.operands.wcount.toNat
      (s.operands.data.word (s.operands.wcount.toNat - 1)).toNat = true) :
    exec (.decode true) s =
      .next { s.finished .ok with len := s.operands.data.word (s.operands.wcount.toNat - 1) } := by
  rw [exec_eq_complete, ruleOf, decodeRule]
  simp only [hpos, Nat.not_lt.2 hfit, hvalid, if_false, Bool.not_true, Bool.false_eq_true, if_true]
  rfl

/-- R108: an invalid length word zeroes the words and empties both buffers. -/
theorem exec_decode_true_of_invalid
    (hinvalid : lengthValid s.operands.wcount.toNat
      (s.operands.data.word (s.operands.wcount.toNat - 1)).toNat = false) :
    exec (.decode true) s =
      .next { s.finished .malformedLength with
                data := s.data.writeAll (scrubCells s.operands.wcount.toNat)
                wcount := 0
                len := 0 } := by
  rw [exec_eq_complete, ruleOf, decodeRule]
  simp only [hpos, Nat.not_lt.2 hfit, hinvalid, if_false, Bool.not_true, Bool.false_eq_true]
  rfl

end Outcomes

/-! ### The obligations -/

/-- Settles O16: on an empty buffer both rules write a zero count and no cell. -/
theorem emptyBuffersStayEmpty : Obligations.EmptyBuffersStayEmpty := by
  unfold Obligations.EmptyBuffersStayEmpty
  refine ⟨fun wl s h => ?_, fun wl s h => exec_decode_of_wcount_eq_zero wl (by simp [h])⟩
  have h0 : s.operands.len.toNat = 0 := by simp [h]
  rw [exec_encode_of_le (by simp [h0]), h0, encodedCells_zero, encodedCount_zero]
  rfl

/-- Settles O17: one case per outcome of the command, and `wc_decode` has the same. -/
theorem decodeComputesWcDecode : Obligations.DecodeComputesWcDecode := by
  unfold Obligations.DecodeComputesWcDecode
  intro wl s hs
  dsimp only
  refine ⟨exec_decode_of_lt wl, fun hfit => ?_⟩
  have hdata : s.operands.data = s.data := congrArg Operands.data (State.operands_of_snapshotFrozen hs)
  by_cases hpos : s.operands.wcount.toNat = 0
  · simp only [hpos]
    exact ⟨exec_decode_of_wcount_eq_zero wl hpos, rfl⟩
  cases wl with
  | false =>
    rw [wcDecode_false, Data.unpackWords_block]
    dsimp only
    rw [Data.length_bytes]
    exact ⟨exec_decode_false hfit, rfl⟩
  | true =>
    rw [Data.wcDecode_block_true _ hpos, ← hdata]
    cases hvalid : lengthValid s.operands.wcount.toNat
        (s.operands.data.word (s.operands.wcount.toNat - 1)).toNat with
    | true =>
      rw [if_pos rfl]
      dsimp only
      rw [Data.length_bytes, exec_decode_true_of_valid hpos hfit hvalid, BitVec.ofNat_toNat, BitVec.setWidth_eq]
      exact ⟨rfl, rfl⟩
    | false =>
      rw [if_neg Bool.false_ne_true]
      refine ⟨rfl, _, exec_decode_true_of_invalid hpos hfit hvalid, rfl, fun a => ?_⟩
      rw [hdata]
      exact s.data.byte_writeAll_scrubCells _ a

/-- Settles O18: the command succeeds exactly when its check of the length word does. -/
theorem decodeValidatesTheLengthWord : Obligations.DecodeValidatesTheLengthWord := by
  unfold Obligations.DecodeValidatesTheLengthWord
  intro s
  dsimp only
  intro hpos hfit
  rw [← lengthValid_iff]
  cases hvalid : lengthValid s.operands.wcount.toNat
      (s.operands.data.word (s.operands.wcount.toNat - 1)).toNat with
  | true =>
    obtain ⟨-, hmax⟩ := (lengthValid_iff _ _).1 hvalid
    exact ⟨_, exec_decode_true_of_valid (by omega) hfit hvalid, iff_of_true rfl rfl, fun _ => ⟨rfl, hmax, rfl⟩⟩
  | false =>
    exact ⟨_, exec_decode_true_of_invalid (by omega) hfit hvalid, iff_of_false nofun nofun, nofun⟩

end Sys2Proof.Machine
end

