-- ==== Sys2Proof/Proofs/KeySchedule.lean ====
section
/-! PROOF. The key schedule (41_key_schedule.md). The normalised key of a snapshot and `ks_normalize` of a byte string
are both four words packed from sixteen bytes, so every statement about them is one about those bytes. -/

namespace Sys2Proof.Machine

/-! ### Four words from sixteen bytes -/

/-- The four key words packed from the bytes `b 0` to `b 15` (R121). -/
def keyOfBytes (b : Nat → Byte) : Key4 where
  w0 := wordOf (b 0) (b 1) (b 2) (b 3)
  w1 := wordOf (b 4) (b 5) (b 6) (b 7)
  w2 := wordOf (b 8) (b 9) (b 10) (b 11)
  w3 := wordOf (b 12) (b 13) (b 14) (b 15)

theorem byte_keyOfBytes (b : Nat → Byte) {j : Nat} (hj : j < 16) : (keyOfBytes b).byte j = b j := by
  interval_cases j <;> simp [keyOfBytes, Key4.byte, Key4.get]

/-- Only the first sixteen bytes count. -/
theorem keyOfBytes_congr {b b' : Nat → Byte} (h : ∀ j < 16, b j = b' j) : keyOfBytes b = keyOfBytes b' := by
  simp [keyOfBytes, h]

theorem normalizedKey_eq_keyOfBytes (o : Operands) :
    normalizedKey o = keyOfBytes (keyByte o.keyLen.toNat o.key) := rfl

/-- Zero bytes appended to a string read as the zeros past its end. -/
theorem getD_append_replicate_zero (key : List Byte) (n j : Nat) :
    (key ++ List.replicate n 0).getD j 0 = key.getD j 0 := by
  rcases Nat.lt_or_ge j key.length with hj | hj
  · exact List.getD_append _ _ _ _ hj
  · rw [List.getD_append_right _ _ _ _ hj, List.getD_eq_default _ _ hj, List.getD_eq_getElem?_getD,
      List.getElem?_getD_replicate_default_eq]

theorem ksNormalize_eq_keyOfBytes (key : List Byte) : ksNormalize key = keyOfBytes (key.getD · 0) := by
  rw [ksNormalize]
  simp only [getD_append_replicate_zero, keyOfBytes]

/-! ### Equivalent keys -/

/-- Bytes from the seventeenth on have no influence (R125). -/
theorem ksNormalize_take (key : List Byte) : ksNormalize (key.take 16) = ksNormalize key := by
  simp only [ksNormalize_eq_keyOfBytes]
  refine keyOfBytes_congr fun j hj => ?_
  rw [List.getD_eq_getElem?_getD, List.getElem?_take_of_lt hj, List.getD_eq_getElem?_getD]

/-- Nor have trailing zero bytes (R126). -/
theorem ksNormalize_append_replicate_zero (key : List Byte) (n : Nat) :
    ksNormalize (key ++ List.replicate n 0) = ksNormalize key := by
  simp only [ksNormalize_eq_keyOfBytes, getD_append_replicate_zero]

/-- Nonempty keys enter `xxtea_encrypt` through their normalised words alone (R166). -/
theorem xxteaEncrypt_congr {key key' : List Byte} (m : List Byte) (hkey : key ≠ []) (hkey' : key' ≠ [])
    (h : ksNormalize key = ksNormalize key') : xxteaEncrypt m key = xxteaEncrypt m key' := by
  simp only [xxteaEncrypt, h, List.isEmpty_iff, hkey, hkey']

/-- Settles O12: both keys normalise to the words of their common first sixteen bytes. -/
theorem keyBytesBeyondSixteenDoNotMatter : Obligations.KeyBytesBeyondSixteenDoNotMatter := by
  unfold Obligations.KeyBytesBeyondSixteenDoNotMatter
  intro key key' m hlen hlen' htake
  have hnorm : ksNormalize key = ksNormalize key' := by
    rw [← ksNormalize_take key, htake, ksNormalize_take]
  exact ⟨hnorm, xxteaEncrypt_congr m (by rintro rfl; simp at hlen) (by rintro rfl; simp at hlen') hnorm⟩

/-! ### KEYNORM -/

/-- R120: the empty key writes only STATUS. -/
theorem exec_keynorm_of_keyLen_eq_zero {s : State} (h : s.operands.keyLen = 0) :
    exec .keynorm s = .next (s.finished .emptyKey) := by
  rw [exec_eq_complete, ruleOf, keynormRule, if_pos h]
  rfl

/-- R122: any other key writes its normalised words to NKEY. -/
theorem exec_keynorm_of_keyLen_ne_zero {s : State} (h : s.operands.keyLen ≠ 0) :
    exec .keynorm s = .next { s.finished .ok with nkey := normalizedKey s.operands } := by
  rw [exec_eq_complete, ruleOf, keynormRule, if_neg h]
  rfl

/-- The bytes the registers present, and zeros from KEY_LEN on, are the key's own and the zeros past its end (R124). -/
theorem normalizedKey_of_presentsKey {o : Operands} {key : List Byte} (h : o.presentsKey key) :
    normalizedKey o = ksNormalize key := by
  obtain ⟨hlen, hbytes⟩ := h
  rw [normalizedKey_eq_keyOfBytes, ksNormalize_eq_keyOfBytes, hlen]
  refine keyOfBytes_congr fun j hj => ?_
  rw [keyByte]
  split
  case isTrue hin => exact hbytes j (Nat.lt_min.2 ⟨hj, hin⟩)
  case isFalse hout => exact (List.getD_eq_default _ _ (Nat.not_lt.1 hout)).symm

/-- Settles O10: KEY_LEN is zero exactly when the presented key is empty. -/
theorem keynormNormalizesThePresentedKey : Obligations.KeynormNormalizesThePresentedKey := by
  unfold Obligations.KeynormNormalizesThePresentedKey
  intro s key hpresents
  have hlen : s.operands.keyLen.toNat = key.length := hpresents.1
  have hzero : s.operands.keyLen = 0 ↔ key = [] := by
    rw [← BitVec.toNat_inj, hlen]
    exact List.length_eq_zero_iff
  split
  case isTrue hkey => exact exec_keynorm_of_keyLen_eq_zero (hzero.2 hkey)
  case isFalse hkey =>
    rw [exec_keynorm_of_keyLen_ne_zero (mt hzero.1 hkey), normalizedKey_of_presentsKey hpresents]

/-- Settles O11: the bytes of the normalised key are `keybyte` of R121. -/
theorem keynormMasksAbsentKeyBytes : Obligations.KeynormMasksAbsentKeyBytes := by
  unfold Obligations.KeynormMasksAbsentKeyBytes
  intro s hlen
  exact ⟨_, exec_keynorm_of_keyLen_ne_zero hlen, rfl, fun j hj => byte_keyOfBytes _ hj⟩

/-- Settles O13: an all-zero key is the empty string with zero bytes appended. -/
theorem trailingZeroKeyBytesDoNotMatter : Obligations.TrailingZeroKeyBytesDoNotMatter := by
  unfold Obligations.TrailingZeroKeyBytesDoNotMatter
  refine ⟨fun key _ _ => ksNormalize_append_replicate_zero key 1, fun key _ => ksNormalize_take key, fun n _ => ?_,
    fun s => exec_keynorm_of_keyLen_eq_zero⟩
  calc ksNormalize (List.replicate n 0)
    _ = ksNormalize [] := ksNormalize_append_replicate_zero [] n
    _ = Key4.zero := by decide

end Sys2Proof.Machine
end

