-- ==== Sys2Proof/Proofs/KeyWriters.lean ====
section
/-! PROOF. What writes NKEY (41_key_schedule.md R123, 43_cipher.md R172, 70_reset_and_hazards.md R210): no host access
does, and of the commands the three that take a key, each on its successful path. -/

namespace Sys2Proof.Machine

/-! ### The host -/

@[simp] theorem State.writeLoc_nkey (s : State) (t : Loc) (v : Word) : (s.writeLoc t v).nkey = s.nkey := by
  cases t <;> rfl

theorem State.memWrite_nkey (s : State) (addr : Nat) (v : Word) : (s.memWrite addr v).2.nkey = s.nkey := by
  rcases s.memWrite_cases addr v with ⟨-, h⟩ | ⟨-, -, h⟩ | ⟨-, -, -, -, h⟩ | ⟨-, -, -, h⟩ <;> simp [h]

@[simp] theorem State.hostStep_nkey (s : State) : s.hostStep.nkey = s.nkey := by
  rcases s.hostStep_cases with ⟨addr, v, -, -, h⟩ | ⟨d, h, tr, f, heq⟩
  · rw [h, State.record_nkey]
    exact s.popHost.memWrite_nkey addr v
  · rw [heq]

/-! ### The commands -/

/-- A result that writes NKEY does so on a successful path of command `i` (for DECRYPT, MALFORMED_LENGTH too), with the
normalised key of a snapshot whose key is not empty. -/
def Result.WritesNormalizedKey (r : Result) (i : Instr) (o : Operands) : Prop :=
  (r.code = .ok ∨ (i = .decrypt ∧ r.code = .malformedLength)) ∧ o.keyLen ≠ 0 ∧ r.nkey = some (normalizedKey o)

theorem keynormRule_nkey (o : Operands) :
    (keynormRule o).nkey = none ∨ (keynormRule o).WritesNormalizedKey .keynorm o := by
  unfold keynormRule
  split
  case isTrue => exact .inl rfl
  case isFalse hkey => exact .inr ⟨.inl rfl, hkey, rfl⟩

theorem encryptRule_nkey (wmax : Nat) (o : Operands) :
    (encryptRule wmax o).nkey = none ∨ (encryptRule wmax o).WritesNormalizedKey .encrypt o := by
  unfold encryptRule
  dsimp only
  split_ifs with _ hkey
  case neg => exact .inr ⟨.inl rfl, hkey, rfl⟩
  all_goals exact .inl rfl

/-- The NKEY write of DECRYPT stands whether or not the length word is valid (43_cipher.md R172). -/
theorem decryptRule_nkey (wmax : Nat) (o : Operands) :
    (decryptRule wmax o).nkey = none ∨ (decryptRule wmax o).WritesNormalizedKey .decrypt o := by
  unfold decryptRule
  dsimp only
  split_ifs with _ hkey
  -- The empty fast path and the four checks before the NKEY write.
  iterate 5 exact .inl rfl
  · exact .inr ⟨.inl rfl, hkey, rfl⟩
  · exact .inr ⟨.inr ⟨rfl, rfl⟩, hkey, rfl⟩

/-- What a command asks of NKEY: nothing, or one of the three that take a key writes the normalised key. -/
theorem ruleOf_nkey_cases (i : Instr) (wmax : Nat) (o : Operands) :
    (ruleOf i wmax o).nkey = none ∨
    ((i = .keynorm ∨ i = .encrypt ∨ i = .decrypt) ∧ (ruleOf i wmax o).WritesNormalizedKey i o) := by
  cases i with
  | keynorm => exact (keynormRule_nkey o).imp_right (⟨by simp, ·⟩)
  | encrypt => exact (encryptRule_nkey wmax o).imp_right (⟨by simp, ·⟩)
  | decrypt => exact (decryptRule_nkey wmax o).imp_right (⟨by simp, ·⟩)
  | nop | encode | decode | mixf | mixr => exact .inl (ruleOf_nkey_eq_none wmax o (by simp) (by simp) (by simp))

theorem State.complete_nkey_of_eq_none (s : State) {r : Result} (h : r.nkey = none) : (s.complete r).nkey = s.nkey := by
  simp [h]

/-! ### The step -/

/-- Settles O55: of the agents' turns only a reset and a completion reach NKEY. -/
theorem nkeyIsWrittenByKeyCommandsOnly : Obligations.NkeyIsWrittenByKeyCommandsOnly := by
  unfold Obligations.NkeyIsWrittenByKeyCommandsOnly
  intro s t hstep hne
  rcases step_cases hstep with ⟨-, rfl⟩ | ⟨-, rfl⟩ | ⟨hturn, -⟩ | ⟨-, -, rfl⟩ | ⟨hturn, l, i, hl, hi, rfl⟩ |
    ⟨-, l, e, -, -, rfl⟩
  · exact absurd (State.hostStep_nkey _) hne
  · exact absurd (State.work_nkey _) hne
  · exact .inr hturn
  · exact absurd rfl hne
  · rcases ruleOf_nkey_cases i s.params.wmax l.ops with hnone | ⟨hcommand, hcode, hkey, hsome⟩
    · exact absurd (s.popTurn.complete_nkey_of_eq_none hnone) hne
    · exact .inl ⟨hturn, l, i, hl, hi, hcommand, hcode, hkey, by simp [hsome]⟩
  · exact absurd rfl hne

end Sys2Proof.Machine
end

