-- ==== Sys2Proof/Proofs/MixTransforms.lean ====
section
/-! PROOF. The two transforms as functions of block and key (42_mixing.md R131, R142): a reverse round undoes the
forward round with the same sum, step by step from the last one back, and so do the transforms, round by round. -/

namespace Sys2Proof.Machine

/-! ### The inverse law -/

/-- Folding the undoing steps over the reversed list undoes a fold. `P` is what every step keeps and undoing needs. -/
theorem foldl_reverse_foldl_of_undo {α β : Type} {f g : β → α → β} {P : β → Prop} (l : List α)
    (hkeep : ∀ b a, P b → P (f b a)) (hundo : ∀ b, P b → ∀ a ∈ l, g (f b a) a = b) {b : β} (hb : P b) :
    l.reverse.foldl g (l.foldl f b) = b := by
  induction l generalizing b with
  | nil => rfl
  | cons a l ih =>
    have htail := ih (fun b hb a' ha' => hundo b hb a' (List.mem_cons_of_mem a ha')) (hkeep b a hb)
    rw [List.reverse_cons, List.foldl_concat, List.foldl_cons, htail]
    exact hundo b hb a List.mem_cons_self

section Inverse

variable (k : Key4) (sum : Word) {v : List Word} (hv : 2 ≤ v.length)
include hv

theorem revRound_fwdRound : revRound k (fwdRound k v sum) sum = v := by
  rw [revRound, length_fwdRound]
  refine foldl_reverse_foldl_of_undo (P := fun w => w.length = v.length) _ (fun w p hw => ?_) (fun w hw p hp => ?_) rfl
  · rw [length_fwdStep, hw]
  · exact revStep_fwdStep k sum w p (hw ▸ hv) (hw ▸ List.mem_range.1 hp)

theorem fwdRound_revRound : fwdRound k (revRound k v sum) sum = v := by
  rw [fwdRound, length_revRound, ← List.reverse_reverse (List.range v.length)]
  refine foldl_reverse_foldl_of_undo (P := fun w => w.length = v.length) _ (fun w p hw => ?_) (fun w hw p hp => ?_) rfl
  · rw [length_revStep, hw]
  · exact fwdStep_revStep k sum w p (hw ▸ hv) (hw ▸ List.mem_range.1 (List.mem_reverse.1 hp))

theorem xxteaRev_xxteaFwd : xxteaRev k (xxteaFwd k v) = v := by
  rw [xxteaRev, length_xxteaFwd]
  exact foldl_reverse_foldl_of_undo (P := fun w => 2 ≤ w.length) _ (fun w sum hw => by rwa [length_fwdRound])
    (fun w hw sum _ => revRound_fwdRound k sum hw) hv

theorem xxteaFwd_xxteaRev : xxteaFwd k (xxteaRev k v) = v := by
  rw [xxteaFwd, length_xxteaRev, ← List.reverse_reverse (roundSums _)]
  exact foldl_reverse_foldl_of_undo (P := fun w => 2 ≤ w.length) _ (fun w sum hw => by rwa [length_revRound])
    (fun w hw sum _ => fwdRound_revRound k sum hw) hv

end Inverse

/-- Settles O24: the two compositions, and the lengths, which no step changes. -/
theorem transformsAreInverse : Obligations.TransformsAreInverse := by
  unfold Obligations.TransformsAreInverse
  intro k v hv
  exact ⟨xxteaRev_xxteaFwd k hv, xxteaFwd_xxteaRev k hv, length_xxteaFwd k v, length_xxteaRev k v⟩

/-! ### The round count -/

/-- The quotient of R131's formula, known by its bounds. -/
theorem rounds_eq_of_bounds {n q : Nat} (hlo : q * n ≤ 52) (hhi : 52 < (q + 1) * n) : rounds n = 6 + q :=
  congrArg (6 + ·) (Nat.div_eq_of_lt_le hlo hhi)

theorem six_le_rounds (n : Nat) : 6 ≤ rounds n := Nat.le_add_right 6 _

/-- A block of two words has the most rounds. -/
theorem rounds_le {n : Nat} (hn : 2 ≤ n) : rounds n ≤ 32 :=
  Nat.add_le_add_left (Nat.div_le_div_left hn (by decide)) 6

/-- Settles O21: each row of the table is a quotient, the last one 0. -/
theorem roundCountTable : Obligations.RoundCountTable := by
  unfold Obligations.RoundCountTable
  refine ⟨fun n => rfl, by decide, ?_, ?_, ?_, ?_, ?_, ?_, fun n hn => ⟨six_le_rounds n, rounds_le hn⟩⟩
  · exact fun n _ _ => rounds_eq_of_bounds (q := 5) (by omega) (by omega)
  · exact fun n _ _ => rounds_eq_of_bounds (q := 4) (by omega) (by omega)
  · exact fun n _ _ => rounds_eq_of_bounds (q := 3) (by omega) (by omega)
  · exact fun n _ _ => rounds_eq_of_bounds (q := 2) (by omega) (by omega)
  · exact fun n _ _ => rounds_eq_of_bounds (q := 1) (by omega) (by omega)
  · exact fun n _ => rounds_eq_of_bounds (q := 0) (by omega) (by omega)

end Sys2Proof.Machine
end

