-- ==== Sys2Proof/Proofs/MixLoops.lean ====
section
/-! PROOF. The loops of R136 and R139, which carry a neighbour from step to step (42_mixing.md). The word carried is
always the neighbour the positional form reads, so each step of a loop is the step of the transform at its place. -/

namespace Sys2Proof.Machine

/-! ### The round sums (R135) -/

theorem roundSums_succ (m : Nat) : roundSums (m + 1) = roundSums m ++ [BitVec.ofNat 32 (m + 1) * delta] := by
  simp [roundSums, List.range_succ]

theorem ofNat_succ_mul_delta (m : Nat) :
    BitVec.ofNat 32 (m + 1) * delta = BitVec.ofNat 32 m * delta + delta := by
  rw [BitVec.ofNat_add, BitVec.add_mul, BitVec.one_mul]

/-- DELTA is odd, so no multiple of it below `2^32 · DELTA` but 0 vanishes (R143). -/
theorem ofNat_mul_delta_eq_zero_iff {m : Nat} (hm : m < 2 ^ 32) : BitVec.ofNat 32 m * delta = 0 ↔ m = 0 := by
  constructor
  · intro h
    have hdvd : 2 ^ 32 ∣ m * 0x9E3779B9 := by
      have htoNat := congrArg BitVec.toNat h
      rw [BitVec.toNat_mul, BitVec.toNat_ofNat, Nat.mod_mul_mod] at htoNat
      exact Nat.dvd_of_mod_eq_zero htoNat
    have hcoprime : Nat.Coprime (2 ^ 32) 0x9E3779B9 := Nat.Coprime.pow_left 32 (by decide)
    exact Nat.eq_zero_of_dvd_of_lt (hcoprime.dvd_of_dvd_mul_right hdvd) hm
  · rintro rfl
    rfl

/-- The predecessor of a place but the first. -/
theorem pred_succ {n p : Nat} (hp : p < n) : (p + 1 + n - 1) % n = p := by
  rw [show p + 1 + n - 1 = p + n by omega, Nat.add_mod_right, Nat.mod_eq_of_lt hp]

/-! ### The forward loop -/

section Forward

variable (k : Key4) (sum : Word)

/-- One step of R136's loop at place `p` with successor `q`: the word carried is the predecessor. -/
def fwdCarryStep (p q : Nat) (c : List Word × Word) : List Word × Word :=
  let x := wordAt c.1 p + mx k c.2 (wordAt c.1 q) sum p (selector sum)
  (c.1.set p x, x)

theorem fwdLoopInner_succ (m : Nat) (v : List Word) (z : Word) :
    fwdLoopInner k sum (m + 1) v z = fwdCarryStep k sum m (m + 1) (fwdLoopInner k sum m v z) := by
  rw [fwdLoopInner, List.range_succ, List.foldl_concat]
  rfl

theorem fwdLoopRound_eq (n : Nat) (c : Word × List Word × Word) :
    fwdLoopRound k n c =
      (c.1 + delta, fwdCarryStep k (c.1 + delta) n 0 (fwdLoopInner k (c.1 + delta) n c.2.1 c.2.2)) := rfl

/-- Carrying the predecessor, the step of the loop is the step of the transform, and it hands on the word it wrote. -/
theorem fwdCarryStep_eq {v : List Word} {l p q : Nat} (hv : v.length = l) (hp : p < l) (hq : (p + 1) % l = q) :
    fwdCarryStep k sum p q (v, wordAt v ((p + l - 1) % l)) =
      (fwdStep k sum v p, wordAt (fwdStep k sum v p) p) := by
  subst hv hq
  rw [fwdStep, wordAt_set, if_pos ⟨rfl, hp⟩]
  rfl

variable {v : List Word} {n : Nat} (hv : v.length = n + 1)
include hv

/-- The inner loop after `m` steps: the first `m` steps of the round, and the predecessor of place `m`. -/
theorem fwdLoopInner_eq {m : Nat} (hm : m ≤ n) :
    fwdLoopInner k sum m v (wordAt v n) =
      ((List.range m).foldl (fwdStep k sum) v,
        wordAt ((List.range m).foldl (fwdStep k sum) v) ((m + (n + 1) - 1) % (n + 1))) := by
  induction m with
  | zero => simp [fwdLoopInner]
  | succ m ih =>
    have hlen : ((List.range m).foldl (fwdStep k sum) v).length = n + 1 :=
      (length_foldl_eq v _ (length_fwdStep k sum) _).trans hv
    rw [fwdLoopInner_succ, ih (by omega), fwdCarryStep_eq k sum hlen (by omega) (Nat.mod_eq_of_lt (by omega)),
      List.range_succ, List.foldl_concat, pred_succ (by omega)]

/-- One iteration of the outer loop is a forward round under the next sum; it hands on the last word. -/
theorem fwdLoopRound_wordAt :
    fwdLoopRound k n (sum, v, wordAt v n) =
      (sum + delta, fwdRound k v (sum + delta), wordAt (fwdRound k v (sum + delta)) n) := by
  have hlen : ((List.range n).foldl (fwdStep k (sum + delta)) v).length = n + 1 :=
    (length_foldl_eq v _ (length_fwdStep k _) _).trans hv
  rw [fwdLoopRound_eq, fwdLoopInner_eq k _ hv le_rfl, fwdCarryStep_eq k _ hlen n.lt_succ_self (Nat.mod_self _),
    fwdRound, hv, List.range_succ, List.foldl_concat]

/-- The outer loop after `m` iterations: the rounds under the first `m` sums. -/
theorem repeat_fwdLoopRound (m : Nat) :
    Nat.repeat (fwdLoopRound k n) m (0, v, wordAt v n) =
      (BitVec.ofNat 32 m * delta, (roundSums m).foldl (fwdRound k) v,
        wordAt ((roundSums m).foldl (fwdRound k) v) n) := by
  induction m with
  | zero => simp [Nat.repeat, roundSums]
  | succ m ih =>
    have hlen : ((roundSums m).foldl (fwdRound k) v).length = n + 1 :=
      (length_foldl_eq v _ (fun w s => length_fwdRound k s w) _).trans hv
    rw [Nat.repeat, ih, fwdLoopRound_wordAt k _ hlen, roundSums_succ, List.foldl_concat, ofNat_succ_mul_delta]

end Forward

/-- Settles O22: the loop has run the rounds of the transform when it stops. -/
theorem forwardLoopComputesForwardTransform : Obligations.ForwardLoopComputesForwardTransform := by
  unfold Obligations.ForwardLoopComputesForwardTransform
  intro k v hv
  rw [fwdLoop, repeat_fwdLoopRound k (by omega), xxteaFwd]

/-! ### The reverse loop -/

section Reverse

variable (k : Key4) (sum : Word)

/-- One step of R139's loop at place `p` with predecessor `q`: the word carried is the successor. -/
def revCarryStep (p q : Nat) (c : List Word × Word) : List Word × Word :=
  let x := wordAt c.1 p - mx k (wordAt c.1 q) c.2 sum p (selector sum)
  (c.1.set p x, x)

theorem revLoopInner_succ (m : Nat) (c : List Word × Word) :
    revLoopInner k sum (m + 1) c.1 c.2 =
      revLoopInner k sum m (revCarryStep k sum (m + 1) m c).1 (revCarryStep k sum (m + 1) m c).2 := by
  rw [revLoopInner, List.range_succ, List.reverse_concat, List.foldl_cons]
  rfl

theorem revLoopRound_eq (n : Nat) (c : Word × List Word × Word) :
    revLoopRound k n c = (c.1 - delta, revCarryStep k c.1 0 n (revLoopInner k c.1 n c.2.1 c.2.2)) := rfl

/-- Carrying the successor, the step of the loop is the step of the transform, and it hands on the word it wrote. -/
theorem revCarryStep_eq {v : List Word} {l p q : Nat} (hv : v.length = l) (hp : p < l) (hq : (p + l - 1) % l = q) :
    revCarryStep k sum p q (v, wordAt v ((p + 1) % l)) =
      (revStep k sum v p, wordAt (revStep k sum v p) p) := by
  subst hv hq
  rw [revStep, wordAt_set, if_pos ⟨rfl, hp⟩]
  rfl

/-- The places of the inner loop, in its order, are those of the round without the last, 0. -/
theorem reverse_range_succ (n : Nat) : (List.range (n + 1)).reverse = ((List.range n).map (· + 1)).reverse ++ [0] := by
  rw [List.range_succ_eq_map, List.reverse_cons]

/-- The inner loop from place `m` down to 1: those steps of the round, and the successor of place 0. -/
theorem revLoopInner_eq {v : List Word} {n m : Nat} (hv : v.length = n + 1) (hm : m ≤ n) :
    revLoopInner k sum m v (wordAt v ((m + 1) % (n + 1))) =
      (((List.range m).map (· + 1)).reverse.foldl (revStep k sum) v,
        wordAt (((List.range m).map (· + 1)).reverse.foldl (revStep k sum) v) (1 % (n + 1))) := by
  induction m generalizing v with
  | zero => rfl
  | succ m ih =>
    have htail := ih (v := revStep k sum v (m + 1)) (by rw [length_revStep, hv]) (by omega)
    rw [Nat.mod_eq_of_lt (by omega)] at htail
    rw [revLoopInner_succ k sum m (v, _), revCarryStep_eq k sum hv (by omega) (pred_succ (by omega)), htail,
      List.range_succ, List.map_append, List.map_singleton, List.reverse_concat, List.foldl_cons]

/-- One iteration of the outer loop is a reverse round under the current sum; it hands on the first word. -/
theorem revLoopRound_wordAt {v : List Word} {n : Nat} (hv : v.length = n + 1) :
    revLoopRound k n (sum, v, wordAt v 0) =
      (sum - delta, revRound k v sum, wordAt (revRound k v sum) 0) := by
  have hlen : (((List.range n).map (· + 1)).reverse.foldl (revStep k sum) v).length = n + 1 :=
    (length_foldl_eq v _ (length_revStep k _) _).trans hv
  have hinner := revLoopInner_eq k sum hv le_rfl
  have hpred : (0 + (n + 1) - 1) % (n + 1) = n := by
    rw [Nat.zero_add]
    exact Nat.mod_eq_of_lt n.lt_succ_self
  rw [Nat.mod_self] at hinner
  rw [revLoopRound_eq, hinner, revCarryStep_eq k sum hlen n.succ_pos hpred, revRound, hv, reverse_range_succ,
    List.foldl_concat]

/-- The loop from the sum of `m` rounds stops after `m` iterations, having run the rounds in reverse (R143). -/
theorem revWhile_eq {v : List Word} {n m fuel : Nat} (hv : v.length = n + 1) (hm : m < 2 ^ 32) (hfuel : m ≤ fuel)
    (i : Nat) :
    revWhile k n fuel (i, BitVec.ofNat 32 m * delta, v, wordAt v 0) =
      (i + m, 0, (roundSums m).reverse.foldl (revRound k) v,
        wordAt ((roundSums m).reverse.foldl (revRound k) v) 0) := by
  induction m generalizing v fuel i with
  | zero => cases fuel <;> simp [revWhile, roundSums]
  | succ m ih =>
    obtain ⟨fuel, rfl⟩ := Nat.exists_eq_add_one.2 (Nat.lt_of_lt_of_le m.succ_pos hfuel)
    have hsum : BitVec.ofNat 32 (m + 1) * delta ≠ 0 := mt (ofNat_mul_delta_eq_zero_iff hm).1 (by omega)
    have hnext : BitVec.ofNat 32 (m + 1) * delta - delta = BitVec.ofNat 32 m * delta := by
      rw [ofNat_succ_mul_delta, BitVec.add_sub_cancel]
    rw [revWhile, if_neg hsum, revLoopRound_wordAt k _ hv, hnext,
      ih ((length_revRound ..).trans hv) (by omega) (by omega), roundSums_succ, List.reverse_concat, List.foldl_cons,
      Nat.add_right_comm, Nat.add_assoc]

end Reverse

/-- Settles O23: the loop stops when its sum is 0, and the sums before are not. -/
theorem reverseLoopRunsExactlyRoundsTimes : Obligations.ReverseLoopRunsExactlyRoundsTimes := by
  unfold Obligations.ReverseLoopRunsExactlyRoundsTimes
  constructor
  · intro k v fuel hv hfuel
    have hrounds := rounds_le hv
    rw [revLoop, revWhile_eq k (by omega) (by omega) hfuel, xxteaRev, Nat.zero_add]
  · intro n j hn hj
    have hrounds := rounds_le hn
    rw [ofNat_mul_delta_eq_zero_iff (by omega)]
    omega

end Sys2Proof.Machine
end

