-- ==== Sys2Proof/Proofs/MixCommands.lean ====
section
/-! PROOF. MIXF and MIXR (42_mixing.md R140, R141, R145). The two commands differ in their transform only, so their
outcomes are stated once, for any command whose rule is `mixRule`. -/

namespace Sys2Proof.Machine

section Outcomes

variable {transform : Key4 → List Word → List Word} {i : Instr} {s : State}
variable (hrule : ∀ wmax o, ruleOf i wmax o = mixRule transform wmax o)
include hrule

/-- A word count beyond the buffer raises CAPACITY. -/
theorem exec_mix_of_lt (h : s.params.wmax < s.operands.wcount.toNat) : exec i s = .next (s.finished .capacity) := by
  rw [exec_eq_complete, hrule, mixRule]
  exact congrArg (fun r => Host.Outcome.next (s.complete r)) (if_pos h)

/-- A block of fewer than two words raises SHORT_BLOCK (R141). -/
theorem exec_mix_of_lt_two (hfit : s.operands.wcount.toNat ≤ s.params.wmax) (h : s.operands.wcount.toNat < 2) :
    exec i s = .next (s.finished .shortBlock) := by
  rw [exec_eq_complete, hrule, mixRule]
  exact congrArg (fun r => Host.Outcome.next (s.complete r)) ((if_neg (Nat.not_lt.2 hfit)).trans (if_pos h))

/-- A block that fits is transformed under NKEY in place. -/
theorem exec_mix_of_two_le (hfit : s.operands.wcount.toNat ≤ s.params.wmax) (h : 2 ≤ s.operands.wcount.toNat) :
    exec i s = .next
      { s.finished .ok with
          data := s.data.writeAll
            (blockCells 0 (transform s.operands.nkey (s.operands.data.block s.operands.wcount.toNat))) } := by
  rw [exec_eq_complete, hrule, mixRule]
  exact congrArg (fun r => Host.Outcome.next (s.complete r))
    ((if_neg (Nat.not_lt.2 hfit)).trans (if_neg (Nat.not_lt.2 h)))

end Outcomes

/-- A block of `n` words written at the start reads back, and no byte beyond it changes. -/
theorem Data.writeAll_blockCells_zero (d : Data) {vs : List Word} {n : Nat} (hlen : vs.length = n) :
    (d.writeAll (blockCells 0 vs)).block n = vs ∧
    ∀ a, 4 * n ≤ a → (d.writeAll (blockCells 0 vs)).byte a = d.byte a := by
  refine ⟨hlen ▸ d.block_writeAll_blockCells vs, fun a ha => d.byte_writeAll_of_notMem _ fun c hc => ?_⟩
  have hbelow := blockCells_lt hlen.le c hc
  omega

/-- Settles O25: the outcomes of the shared rule; the forward transform keeps the length of the block. -/
theorem mixfAppliesForwardTransform : Obligations.MixfAppliesForwardTransform := by
  unfold Obligations.MixfAppliesForwardTransform
  intro s
  have hrule : ∀ wmax o, ruleOf .mixf wmax o = mixRule xxteaFwd wmax o := fun _ _ => rfl
  exact ⟨exec_mix_of_lt hrule, exec_mix_of_lt_two hrule, fun hfit h2 =>
    ⟨_, exec_mix_of_two_le hrule hfit h2, rfl, s.data.writeAll_blockCells_zero (by simp)⟩⟩

/-- Settles O26: the outcomes of the shared rule; the reverse transform keeps the length of the block. -/
theorem mixrAppliesReverseTransform : Obligations.MixrAppliesReverseTransform := by
  unfold Obligations.MixrAppliesReverseTransform
  intro s
  have hrule : ∀ wmax o, ruleOf .mixr wmax o = mixRule xxteaRev wmax o := fun _ _ => rfl
  exact ⟨exec_mix_of_lt hrule, exec_mix_of_lt_two hrule, fun hfit h2 =>
    ⟨_, exec_mix_of_two_le hrule hfit h2, rfl, s.data.writeAll_blockCells_zero (by simp)⟩⟩

/-! ### Short blocks -/

/-- The smallest legal buffer (00_scope.md R7). -/
theorem Params.two_le_wmax {p : Params} (hp : p.wf = true) : 2 ≤ p.wmax := by
  simp only [Params.wf, Bool.and_eq_true, decide_eq_true_eq] at hp
  obtain ⟨⟨⟨hmin, -⟩, -⟩, -⟩ := hp
  exact hmin

/-- DECRYPT of a whole ciphertext of fewer than two words, the key being there (43_cipher.md R165, R171). -/
theorem exec_decrypt_of_short {s : State} (hlen : s.operands.len.toNat ≠ 0) (hkey : s.operands.keyLen ≠ 0)
    (halign : s.operands.len.toNat % 4 = 0) (hfit : s.operands.len.toNat / 4 ≤ s.params.wmax)
    (hshort : s.operands.len.toNat / 4 < 2) : exec .decrypt s = .next (s.finished .shortBlock) := by
  rw [exec_eq_complete, ruleOf, decryptRule]
  simp only [hlen, hkey, halign, Nat.not_lt.2 hfit, hshort, ne_eq, not_true_eq_false, if_false, if_true]
  rw [s.complete_raise]

/-- Settles O27: a legal buffer has room for a short block, so the length check is the one that fails. -/
theorem shortBlocksAreRejected : Obligations.ShortBlocksAreRejected := by
  unfold Obligations.ShortBlocksAreRejected
  intro s hp
  have hmin := Params.two_le_wmax hp
  refine ⟨fun h => ⟨exec_mix_of_lt_two (fun _ _ => rfl) (by omega) (by omega),
    exec_mix_of_lt_two (fun _ _ => rfl) (by omega) (by omega)⟩, fun hlen hkey => ?_⟩
  have hfour : s.operands.len.toNat = 4 := by rw [hlen]; rfl
  exact exec_decrypt_of_short (by omega) hkey (by omega) (by omega) (by omega)

end Sys2Proof.Machine
end

