-- ==== Sys2Proof/Proofs/CipherFunctions.lean ====
section
/-! PROOF. The pure functions of the cipher (43_cipher.md R166, R174, R175). On nonempty input both are a transform
between two uses of the word codec, so the round trip is the inverse law of the transforms inside that of the codec. -/

namespace Sys2Proof.Machine

/-! ### The functions past their early results -/

/-- R166: the ciphertext is the bytes of the mixed encoding. -/
theorem xxteaEncrypt_of_ne_nil {m key : List Byte} (hm : m ≠ []) (hkey : key ≠ []) :
    xxteaEncrypt m key = .ok (unpackWords (xxteaFwd (ksNormalize key) (wcEncode m true))) := by
  rw [xxteaEncrypt, if_neg (by simpa using hm), if_neg (by simpa using hkey), wcDecode_false]

/-- R174 on the bytes of two words or more, which pass the checks of its length. -/
theorem xxteaDecrypt_unpackWords {v : List Word} {key : List Byte} (hv : 2 ≤ v.length) (hkey : key ≠ []) :
    xxteaDecrypt (unpackWords v) key = wcDecode (xxteaRev (ksNormalize key) v) true := by
  have hlen := length_unpackWords v
  have hne : unpackWords v ≠ [] := by
    rw [← List.length_pos_iff]
    omega
  rw [xxteaDecrypt, if_neg (by simpa using hne), if_neg (by simpa using hkey), if_neg (by omega), if_neg (by omega),
    wcEncode_false, packWords_unpackWords]

/-! ### The round trip -/

theorem one_le_ceil4 {l : Nat} (hl : l ≠ 0) : 1 ≤ ceil4 l := by
  rw [ceil4]
  omega

/-- With its length word, a nonempty plaintext makes a block of two words or more (R162). -/
theorem two_le_length_wcEncode_true {m : List Byte} (hm : m ≠ []) : 2 ≤ (wcEncode m true).length := by
  have hwords := one_le_ceil4 (mt List.length_eq_zero_iff.1 hm)
  rw [wcEncode_true hm, List.length_append, length_packWords, List.length_singleton]
  omega

/-- Settles O32: packing undoes unpacking, the reverse transform the forward one, and decoding the encoding. -/
theorem decryptUndoesEncrypt : Obligations.DecryptUndoesEncrypt := by
  unfold Obligations.DecryptUndoesEncrypt
  intro p m key hp hm hkey hfit
  have hblock := two_le_length_wcEncode_true hm
  refine ⟨_, xxteaEncrypt_of_ne_nil hm hkey, ?_⟩
  rw [xxteaDecrypt_unpackWords (by rwa [length_xxteaFwd]) hkey, xxteaRev_xxteaFwd _ hblock]
  exact codecRoundTrip p m hp hfit

end Sys2Proof.Machine
end

