-- ==== Sys2Proof/Proofs/CipherCommands.lean ====
section
/-! PROOF. NOP, ENCRYPT and DECRYPT (43_cipher.md R160 to R174). Each outcome of a command is stated once, in the order
of its checks; the block it computes is that of the pure function of the same name. -/

namespace Sys2Proof.Machine

/-- Settles O9: the rule of NOP asks for no write. -/
theorem nopOnlyCompletes : Obligations.NopOnlyCompletes := by
  unfold Obligations.NopOnlyCompletes
  intro s
  rw [exec_eq_complete, ruleOf, nopRule]
  rfl

/-! ### ENCRYPT, outcome by outcome -/

/-- The ciphertext words ENCRYPT computes from a snapshot (R161). -/
def encryptedBlock (o : Operands) : List Word := xxteaFwd (normalizedKey o) (encodedBlock o)

@[simp] theorem length_encryptedBlock (o : Operands) : (encryptedBlock o).length = ceil4 o.len.toNat + 1 := by
  rw [encryptedBlock, length_xxteaFwd, length_encodedBlock]

section Encrypt

variable {s : State}

/-- R163: the empty fast path comes before every check. -/
theorem exec_encrypt_of_len_eq_zero (hlen : s.operands.len.toNat = 0) :
    exec .encrypt s = .next { s.finished .ok with wcount := 0 } := by
  rw [exec_eq_complete, ruleOf, encryptRule]
  exact congrArg (fun r => Host.Outcome.next (s.complete r)) (if_pos hlen)

variable (hlen : s.operands.len.toNat ≠ 0)
include hlen

/-- R165: the key is checked first. -/
theorem exec_encrypt_of_keyLen_eq_zero (hkey : s.operands.keyLen = 0) :
    exec .encrypt s = .next (s.finished .emptyKey) := by
  rw [exec_eq_complete, ruleOf, encryptRule]
  exact congrArg (fun r => Host.Outcome.next (s.complete r)) ((if_neg hlen).trans (if_pos hkey))

variable (hkey : s.operands.keyLen ≠ 0)
include hkey

/-- R165: then the room for the length word. -/
theorem exec_encrypt_of_lt (h : s.params.wmax < ceil4 s.operands.len.toNat + 1) :
    exec .encrypt s = .next (s.finished .capacity) := by
  rw [exec_eq_complete, ruleOf, encryptRule]
  exact congrArg (fun r => Host.Outcome.next (s.complete r)) ((if_neg hlen).trans ((if_neg hkey).trans (if_pos h)))

/-- R161: the success path. -/
theorem exec_encrypt_of_le (hfit : ceil4 s.operands.len.toNat + 1 ≤ s.params.wmax) :
    exec .encrypt s = .next
      { s.finished .ok with
          nkey := normalizedKey s.operands
          data := s.data.writeAll (blockCells 0 (encryptedBlock s.operands))
          wcount := BitVec.ofNat 32 (ceil4 s.operands.len.toNat + 1)
          len := BitVec.ofNat 32 (4 * (ceil4 s.operands.len.toNat + 1)) } := by
  rw [exec_eq_complete, ruleOf, encryptRule]
  exact congrArg (fun r => Host.Outcome.next (s.complete r))
    ((if_neg hlen).trans ((if_neg hkey).trans (if_neg (Nat.not_lt.2 hfit))))

end Encrypt

/-! ### DECRYPT, outcome by outcome -/

/-- The words DECRYPT computes from a snapshot, before it checks their length word (R168). -/
def decryptedBlock (o : Operands) : List Word := xxteaRev (normalizedKey o) (o.data.block (o.len.toNat / 4))

@[simp] theorem length_decryptedBlock (o : Operands) : (decryptedBlock o).length = o.len.toNat / 4 := by
  rw [decryptedBlock, length_xxteaRev, Data.length_block]

/-- The length word DECRYPT checks, the last word of its block (R173). -/
def decryptedLength (o : Operands) : Word := wordAt (decryptedBlock o) (o.len.toNat / 4 - 1)

section Decrypt

variable {s : State}

/-- R169: the empty fast path comes before every check. -/
theorem exec_decrypt_of_len_eq_zero (hlen : s.operands.len.toNat = 0) :
    exec .decrypt s = .next { s.finished .ok with wcount := 0 } := by
  rw [exec_eq_complete, ruleOf, decryptRule]
  exact congrArg (fun r => Host.Outcome.next (s.complete r)) (if_pos hlen)

/-- R165: the key is checked first. -/
theorem exec_decrypt_of_keyLen_eq_zero (hlen : s.operands.len.toNat ≠ 0) (hkey : s.operands.keyLen = 0) :
    exec .decrypt s = .next (s.finished .emptyKey) := by
  rw [exec_eq_complete, ruleOf, decryptRule]
  exact congrArg (fun r => Host.Outcome.next (s.complete r)) ((if_neg hlen).trans (if_pos hkey))

/-- R165, R170: then the alignment. -/
theorem exec_decrypt_of_unaligned (hkey : s.operands.keyLen ≠ 0) (hmod : s.operands.len.toNat % 4 ≠ 0) :
    exec .decrypt s = .next (s.finished .ctAlign) := by
  have hlen : s.operands.len.toNat ≠ 0 := by omega
  rw [exec_eq_complete, ruleOf, decryptRule]
  exact congrArg (fun r => Host.Outcome.next (s.complete r))
    ((if_neg hlen).trans ((if_neg hkey).trans (if_pos hmod)))

variable (hkey : s.operands.keyLen ≠ 0) (halign : s.operands.len.toNat % 4 = 0)
include hkey halign

/-- R165: then the room; the check for a short block, `exec_decrypt_of_short`, is the last. -/
theorem exec_decrypt_of_lt (hlt : s.params.wmax < s.operands.len.toNat / 4) :
    exec .decrypt s = .next (s.finished .capacity) := by
  have hlen : s.operands.len.toNat ≠ 0 := by omega
  rw [exec_eq_complete, ruleOf, decryptRule]
  exact congrArg (fun r => Host.Outcome.next (s.complete r))
    ((if_neg hlen).trans ((if_neg hkey).trans ((if_neg (not_not.2 halign)).trans (if_pos hlt))))

variable (hfit : s.operands.len.toNat / 4 ≤ s.params.wmax) (htwo : 2 ≤ s.operands.len.toNat / 4)
include hfit htwo

/-- Past its checks DECRYPT is decided by the length word alone. -/
theorem exec_decrypt_of_two_le :
    exec .decrypt s = .next (s.complete
      (if lengthValid (s.operands.len.toNat / 4) (decryptedLength s.operands).toNat then
        { code := .ok
          nkey := some (normalizedKey s.operands)
          writes := blockCells 0 (decryptedBlock s.operands)
          wcount := some (BitVec.ofNat 32 (s.operands.len.toNat / 4))
          len := some (decryptedLength s.operands) }
      else malformedLength (s.operands.len.toNat / 4) (some (normalizedKey s.operands)))) := by
  have hlen : s.operands.len.toNat ≠ 0 := by omega
  rw [exec_eq_complete, ruleOf, decryptRule]
  exact congrArg (fun r => Host.Outcome.next (s.complete r))
    ((if_neg hlen).trans ((if_neg hkey).trans ((if_neg (not_not.2 halign)).trans
      ((if_neg (Nat.not_lt.2 hfit)).trans (if_neg (Nat.not_lt.2 htwo))))))

/-- R168: the success path. -/
theorem exec_decrypt_of_valid
    (hvalid : lengthValid (s.operands.len.toNat / 4) (decryptedLength s.operands).toNat = true) :
    exec .decrypt s = .next
      { s.finished .ok with
          nkey := normalizedKey s.operands
          data := s.data.writeAll (blockCells 0 (decryptedBlock s.operands))
          wcount := BitVec.ofNat 32 (s.operands.len.toNat / 4)
          len := decryptedLength s.operands } := by
  rw [exec_decrypt_of_two_le hkey halign hfit htwo, if_pos hvalid]
  rfl

/-- R172, R173: an invalid length word scrubs the block; the NKEY write stands. -/
theorem exec_decrypt_of_invalid
    (hinvalid : lengthValid (s.operands.len.toNat / 4) (decryptedLength s.operands).toNat = false) :
    exec .decrypt s = .next
      { s.finished .malformedLength with
          nkey := normalizedKey s.operands
          data := s.data.writeAll (scrubCells (s.operands.len.toNat / 4))
          wcount := 0
          len := 0 } := by
  rw [exec_decrypt_of_two_le hkey halign hfit htwo, hinvalid]
  rfl

end Decrypt

/-! ### The blocks are those of the pure functions -/

theorem Operands.keyLen_eq_zero_iff {o : Operands} {key : List Byte} (h : o.presentsKey key) :
    o.keyLen = 0 ↔ key = [] := by
  obtain ⟨hlen, -⟩ := h
  rw [← BitVec.toNat_inj, hlen]
  exact List.length_eq_zero_iff

theorem Data.bytes_ne_nil (d : Data) {n : Nat} (hn : n ≠ 0) : d.bytes n ≠ [] := by
  rw [← List.length_pos_iff, Data.length_bytes]
  omega

/-- R161: the block ENCRYPT mixes is the encoding of the plaintext with its length word. -/
theorem encodedBlock_eq_wcEncode {o : Operands} (hlen : o.len.toNat ≠ 0) :
    encodedBlock o = wcEncode (o.data.bytes o.len.toNat) true := by
  rw [← Data.block_writeAll_encodedCells, encodedCells_true hlen, encodedCount_of_ne_zero hlen]
  rfl

theorem xxteaEncrypt_eq_encryptedBlock {o : Operands} {key : List Byte} (hpresents : o.presentsKey key)
    (hlen : o.len.toNat ≠ 0) (hkey : key ≠ []) :
    xxteaEncrypt (o.data.bytes o.len.toNat) key = .ok (unpackWords (encryptedBlock o)) := by
  rw [xxteaEncrypt_of_ne_nil (o.data.bytes_ne_nil hlen) hkey, encryptedBlock, encodedBlock_eq_wcEncode hlen,
    normalizedKey_of_presentsKey hpresents]

theorem xxteaDecrypt_eq_decryptedBlock {o : Operands} {key : List Byte} (hpresents : o.presentsKey key)
    (hkey : key ≠ []) (halign : o.len.toNat % 4 = 0) (htwo : 2 ≤ o.len.toNat / 4) :
    xxteaDecrypt (o.data.bytes o.len.toNat) key = wcDecode (decryptedBlock o) true := by
  have hbytes : o.data.bytes o.len.toNat = unpackWords (o.data.block (o.len.toNat / 4)) := by
    rw [Data.unpackWords_block, Nat.mul_div_cancel' (Nat.dvd_of_mod_eq_zero halign)]
  rw [hbytes, xxteaDecrypt_unpackWords (by rwa [Data.length_block]) hkey, decryptedBlock,
    normalizedKey_of_presentsKey hpresents]

/-- A block written at the start of a buffer decodes, with a length field, to the first bytes of that buffer. -/
theorem Data.wcDecode_true_of_block_eq {d : Data} {v : List Word} {n : Nat} (hn : n ≠ 0) (hblock : d.block n = v) :
    wcDecode v true =
      if lengthValid n (wordAt v (n - 1)).toNat then .ok (d.bytes (wordAt v (n - 1)).toNat)
      else .error .malformedLength := by
  rw [← hblock, d.wcDecode_block_true hn, d.wordAt_block (by omega)]

/-! ### The obligations -/

/-- Settles O28: both rules test LEN before anything else, and so do the pure functions. -/
theorem emptyInputIsTheFastPath : Obligations.EmptyInputIsTheFastPath := by
  unfold Obligations.EmptyInputIsTheFastPath
  refine ⟨fun s hs hlen => ?_, fun key => ⟨rfl, rfl⟩⟩
  have hzero : s.operands.len.toNat = 0 := by rw [hlen]; rfl
  have hlive : s.operands.len = s.len := congrArg Operands.len (State.operands_of_snapshotFrozen hs)
  exact ⟨hlive ▸ hlen, exec_encrypt_of_len_eq_zero hzero, exec_decrypt_of_len_eq_zero hzero⟩

/-- Settles O29: the outcomes of the rule; the block it writes is that of `xxtea_encrypt`. -/
theorem encryptComputesXxteaEncrypt : Obligations.EncryptComputesXxteaEncrypt := by
  unfold Obligations.EncryptComputesXxteaEncrypt
  intro s key hs hpresents
  dsimp only
  have hnil := Operands.keyLen_eq_zero_iff hpresents
  refine ⟨exec_encrypt_of_len_eq_zero, fun hlen hkey => exec_encrypt_of_keyLen_eq_zero hlen (hnil.2 hkey),
    fun hlen hkey => exec_encrypt_of_lt hlen (mt hnil.1 hkey), fun hlen hkey hfit => ?_⟩
  have hdata : s.operands.data = s.data := congrArg Operands.data (State.operands_of_snapshotFrozen hs)
  obtain ⟨hblock, hframe⟩ := s.data.writeAll_blockCells_zero (length_encryptedBlock s.operands)
  refine ⟨_, exec_encrypt_of_le hlen (mt hnil.1 hkey) hfit, ?_, ?_, hframe⟩
  · rw [normalizedKey_of_presentsKey hpresents]
  · rw [← hdata, xxteaEncrypt_eq_encryptedBlock hpresents hlen hkey, ← Data.unpackWords_block, hdata, hblock]

/-- Settles O30: the outcomes of the rule; the length word of the block is the one `xxtea_decrypt` checks. -/
theorem decryptComputesXxteaDecrypt : Obligations.DecryptComputesXxteaDecrypt := by
  unfold Obligations.DecryptComputesXxteaDecrypt
  intro s key hs hpresents
  dsimp only
  have hnil := Operands.keyLen_eq_zero_iff hpresents
  refine ⟨exec_decrypt_of_len_eq_zero, fun hlen hkey => exec_decrypt_of_keyLen_eq_zero hlen (hnil.2 hkey),
    fun _ hkey => exec_decrypt_of_unaligned (mt hnil.1 hkey), fun _ hkey => exec_decrypt_of_lt (mt hnil.1 hkey),
    fun hlen hkey => exec_decrypt_of_short hlen (mt hnil.1 hkey), fun hkey halign hfit htwo => ?_⟩
  have hdata : s.operands.data = s.data := congrArg Operands.data (State.operands_of_snapshotFrozen hs)
  have hkeyLen := mt hnil.1 hkey
  obtain ⟨hblock, hframe⟩ := s.data.writeAll_blockCells_zero (length_decryptedBlock s.operands)
  have hpure := (xxteaDecrypt_eq_decryptedBlock hpresents hkey halign htwo).trans
    (Data.wcDecode_true_of_block_eq (by omega) hblock)
  rw [← decryptedLength, hdata] at hpure
  rw [hpure, ← normalizedKey_of_presentsKey hpresents]
  cases hvalid : lengthValid (s.operands.len.toNat / 4) (decryptedLength s.operands).toNat with
  | true =>
    refine ⟨_, exec_decrypt_of_valid hkeyLen halign hfit htwo hvalid, hframe, ?_⟩
    rw [if_pos rfl]
    dsimp only
    rw [Data.length_bytes, BitVec.ofNat_toNat, BitVec.setWidth_eq, hblock, decryptedBlock, hdata]
    exact ⟨rfl, rfl, rfl⟩
  | false =>
    refine ⟨_, exec_decrypt_of_invalid hkeyLen halign hfit htwo hvalid, fun a ha => ?_, ?_⟩
    · exact (s.data.byte_writeAll_scrubCells _ a).trans (if_neg (Nat.not_lt.2 ha))
    · rw [if_neg Bool.false_ne_true]
      exact ⟨rfl, rfl, fun a ha => (s.data.byte_writeAll_scrubCells _ a).trans (if_pos ha)⟩

/-- Settles O31: on a legal buffer the length of the success path does not wrap. -/
theorem encryptOutputLength : Obligations.EncryptOutputLength := by
  unfold Obligations.EncryptOutputLength
  intro s hp
  dsimp only
  intro hlen hkey hfit
  have hmax := Params.wmax_le hp
  have htoNat : (BitVec.ofNat 32 (4 * (ceil4 s.operands.len.toNat + 1))).toNat
      = 4 * (ceil4 s.operands.len.toNat + 1) := by
    rw [BitVec.toNat_ofNat, Nat.mod_eq_of_lt (by omega)]
  refine ⟨_, exec_encrypt_of_le hlen hkey hfit, rfl, htoNat, ?_⟩
  dsimp only
  rw [htoNat, ceil4]
  omega

end Sys2Proof.Machine
end

