-- ==== Sys2Proof/Proofs/CipherEngine.lean ====
section
/-! PROOF. Commands run one after another on an idle engine (43_cipher.md R175 to R177). Acceptance latches the
registers as they stand, so each command works on what the one before it left. -/

namespace Sys2Proof.Machine

/-- Acceptance freezes the registers (70_reset_and_hazards.md R220). -/
@[simp] theorem State.snapshotFrozen_accept (s : State) (c : Word) : (s.accept c).snapshotFrozen = true := by
  simp [State.snapshotFrozen]

/-- What the key registers hold is a key: the bytes they present, as many as KEY_LEN says. -/
theorem Operands.exists_presentsKey (o : Operands) : ∃ key, o.presentsKey key := by
  refine ⟨(List.range o.keyLen.toNat).map o.key.byte, by simp, fun i hi => ?_⟩
  have hlt : i < o.keyLen.toNat := by simpa using (Nat.lt_min.1 hi).2
  simp [hlt]

theorem Operands.presentsKey.congr {o o' : Operands} {key : List Byte} (h : o.presentsKey key)
    (hkeyLen : o'.keyLen = o.keyLen) (hkey : o'.key = o.key) : o'.presentsKey key := by
  rwa [Operands.presentsKey, hkeyLen, hkey]

/-- In a buffer of legal size a count of words, and the count of their bytes, do not wrap (00_scope.md R7). -/
theorem Params.toNat_ofNat_of_le {p : Params} {n : Nat} (hp : p.wf = true) (hfit : n ≤ p.wmax) :
    (BitVec.ofNat 32 n).toNat = n ∧ (BitVec.ofNat 32 (4 * n)).toNat = 4 * n := by
  have hmax := Params.wmax_le hp
  simp only [BitVec.toNat_ofNat]
  omega

/-! ### ENCRYPT, then DECRYPT -/

/-- Settles O33: the two commands compute the two pure functions, and the one undoes the other. -/
theorem engineRoundTrip : Obligations.EngineRoundTrip := by
  unfold Obligations.EngineRoundTrip
  intro s hp _ hlen hkeyLen hfit
  obtain ⟨key, hpresents⟩ := s.liveOperands.exists_presentsKey
  have hlen0 : s.len.toNat ≠ 0 := BitVec.toNat_ne.1 hlen
  have hkey : key ≠ [] := mt (Operands.keyLen_eq_zero_iff hpresents).2 hkeyLen
  obtain ⟨c, hcipher, hplain⟩ := decryptUndoesEncrypt s.params (s.data.bytes s.len.toNat) key hp
    (s.data.bytes_ne_nil hlen0) hkey (by rwa [Data.length_bytes])
  obtain ⟨-, -, -, hencrypt⟩ := encryptComputesXxteaEncrypt (s.accept (encode .encrypt)) key (by simp) hpresents
  obtain ⟨a, ha, hfields, hbytes, -⟩ := hencrypt hlen0 hkey hfit
  obtain rfl : c = a.data.bytes (4 * (ceil4 s.len.toNat + 1)) := Except.ok.inj (hcipher.symm.trans hbytes)
  have halen : a.len.toNat = 4 * (ceil4 s.len.toNat + 1) :=
    (congrArg (fun t : State => t.len.toNat) hfields).trans (Params.toNat_ofNat_of_le hp hfit).2
  have haparams : a.params = s.params := (congrArg State.params hfields :)
  have hapresents : a.liveOperands.presentsKey key :=
    hpresents.congr (congrArg State.keyLen hfields :) (congrArg State.key hfields :)
  obtain ⟨-, -, -, -, -, hdecrypt⟩ :=
    decryptComputesXxteaDecrypt (a.accept (encode .decrypt)) key (by simp) hapresents
  have hwords := one_le_ceil4 hlen0
  simp only [State.operands_accept, State.accept_params, State.accept_data, State.liveOperands, halen, haparams,
    Nat.mul_mod_right, Nat.mul_div_cancel_left _ (Nat.succ_pos 3), hplain] at hdecrypt
  obtain ⟨b, hb, -, hbfields, hbbytes, -⟩ := hdecrypt hkey trivial hfit (by omega)
  rw [Data.length_bytes] at hbfields hbbytes
  refine ⟨a, b, ha, hb, (congrArg State.err hfields :), (congrArg State.err hbfields :), ?_, hbbytes⟩
  exact (congrArg State.len hbfields).trans (by simp)

end Sys2Proof.Machine
end

