-- ==== Sys2Proof/Proofs/CipherDecomposition.lean ====
section
/-! PROOF. The cipher commands and the primitive ones (43_cipher.md R176, R177). A sequence of commands on an idle
engine is followed by what the operand registers hold after each; acceptance latches just that. -/

namespace Sys2Proof.Machine

/-! ### What the operand registers hold -/

/-- The engine has the parameters `p`, and its registers hold the operands `o`. -/
def State.Holds (s : State) (p : Params) (o : Operands) : Prop := s.params = p ∧ s.liveOperands = o

namespace State.Holds

variable {s : State} {p : Params} {o : Operands}

theorem self (s : State) : s.Holds s.params s.liveOperands := ⟨rfl, rfl⟩

section Registers

variable (hs : s.Holds p o)
include hs

/-- Two engines agree on the result registers and on DATA when their operands do. -/
theorem agree {t : State} {o' : Operands} (ht : t.Holds p o')
    (hregs : o.nkey = o'.nkey ∧ o.wcount = o'.wcount ∧ o.len = o'.len)
    (hbytes : ∀ i, o.data.byte i = o'.data.byte i) :
    s.nkey = t.nkey ∧ s.wcount = t.wcount ∧ s.len = t.len ∧ ∀ i, s.data.byte i = t.data.byte i := by
  obtain ⟨-, rfl⟩ := hs
  obtain ⟨-, rfl⟩ := ht
  obtain ⟨hnkey, hwcount, hlen⟩ := hregs
  exact ⟨hnkey, hwcount, hlen, hbytes⟩

/-- A host write to WCOUNT on an idle engine (10_state.md R35). -/
theorem writeLoc_wcount (v : Word) : (s.writeLoc .wcount v).Holds p { o with wcount := v } := by
  obtain ⟨rfl, rfl⟩ := hs
  exact ⟨rfl, rfl⟩

/-! ### Accepting and completing a command -/

theorem exists_exec_keynorm (hkey : o.keyLen ≠ 0) :
    ∃ t, exec .keynorm (s.accept (encode .keynorm)) = .next t ∧ t.err = .ok ∧
      t.Holds p { o with nkey := normalizedKey o } := by
  obtain ⟨rfl, rfl⟩ := hs
  exact ⟨_, exec_keynorm_of_keyLen_ne_zero hkey, rfl, rfl, rfl⟩

theorem exists_exec_encode {wl : Bool} {n : Nat} (hn : encodedCount o.len.toNat wl = n) (hfit : n ≤ p.wmax) :
    ∃ t, exec (.encode wl) (s.accept (encode (.encode wl))) = .next t ∧ t.err = .ok ∧
      t.Holds p
        { o with data := o.data.writeAll (encodedCells o.len.toNat wl), wcount := BitVec.ofNat 32 n } := by
  obtain ⟨rfl, rfl⟩ := hs
  subst hn
  exact ⟨_, exec_encode_of_le hfit, rfl, rfl, rfl⟩

theorem exists_exec_encrypt (hlen : o.len.toNat ≠ 0) (hkey : o.keyLen ≠ 0) {n : Nat} (hn : ceil4 o.len.toNat + 1 = n)
    (hfit : n ≤ p.wmax) :
    ∃ t, exec .encrypt (s.accept (encode .encrypt)) = .next t ∧ t.err = .ok ∧
      t.Holds p
        { o with
            nkey := normalizedKey o
            data := o.data.writeAll (blockCells 0 (encryptedBlock o))
            wcount := BitVec.ofNat 32 n
            len := BitVec.ofNat 32 (4 * n) } := by
  obtain ⟨rfl, rfl⟩ := hs
  subst hn
  exact ⟨_, exec_encrypt_of_le hlen hkey hfit, rfl, rfl, rfl⟩

section Decrypt

variable (hkey : o.keyLen ≠ 0) (halign : o.len.toNat % 4 = 0) {n : Nat} (hn : o.len.toNat / 4 = n)
  (hfit : n ≤ p.wmax) (htwo : 2 ≤ n)
include hkey halign hn hfit htwo

theorem exists_exec_decrypt_of_valid (hvalid : lengthValid n (decryptedLength o).toNat = true) :
    ∃ t, exec .decrypt (s.accept (encode .decrypt)) = .next t ∧ t.err = .ok ∧
      t.Holds p
        { o with
            nkey := normalizedKey o
            data := o.data.writeAll (blockCells 0 (decryptedBlock o))
            wcount := BitVec.ofNat 32 n
            len := decryptedLength o } := by
  obtain ⟨rfl, rfl⟩ := hs
  subst hn
  exact ⟨_, exec_decrypt_of_valid hkey halign hfit htwo hvalid, rfl, rfl, rfl⟩

theorem exists_exec_decrypt_of_invalid (hinvalid : lengthValid n (decryptedLength o).toNat = false) :
    ∃ t, exec .decrypt (s.accept (encode .decrypt)) = .next t ∧ t.err = .malformedLength ∧
      t.Holds p
        { o with
            nkey := normalizedKey o
            data := o.data.writeAll (scrubCells n)
            wcount := 0
            len := 0 } := by
  obtain ⟨rfl, rfl⟩ := hs
  subst hn
  exact ⟨_, exec_decrypt_of_invalid hkey halign hfit htwo hinvalid, rfl, rfl, rfl⟩

end Decrypt

section Block

variable {n : Nat} (hn : o.wcount.toNat = n) (hfit : n ≤ p.wmax)
include hn hfit

theorem exists_exec_mix_of_lt_two {i : Instr} {transform : Key4 → List Word → List Word}
    (hrule : ∀ wmax o, ruleOf i wmax o = mixRule transform wmax o) (hshort : n < 2) :
    ∃ t, exec i (s.accept (encode i)) = .next t ∧ t.err = .shortBlock := by
  obtain ⟨rfl, rfl⟩ := hs
  subst hn
  exact ⟨_, exec_mix_of_lt_two hrule hfit hshort, rfl⟩

theorem exists_exec_mix {i : Instr} {transform : Key4 → List Word → List Word}
    (hrule : ∀ wmax o, ruleOf i wmax o = mixRule transform wmax o) (htwo : 2 ≤ n) {v : List Word}
    (hv : transform o.nkey (o.data.block n) = v) :
    ∃ t, exec i (s.accept (encode i)) = .next t ∧ t.err = .ok ∧
      t.Holds p { o with data := o.data.writeAll (blockCells 0 v) } := by
  obtain ⟨rfl, rfl⟩ := hs
  subst hn hv
  exact ⟨_, exec_mix_of_two_le hrule hfit htwo, rfl, rfl, rfl⟩

theorem exists_exec_decode_false :
    ∃ t, exec (.decode false) (s.accept (encode (.decode false))) = .next t ∧ t.err = .ok ∧
      t.Holds p { o with len := BitVec.ofNat 32 (4 * n) } := by
  obtain ⟨rfl, rfl⟩ := hs
  subst hn
  exact ⟨_, exec_decode_false hfit, rfl, rfl, rfl⟩

/-- DECODE.L as `wc_decode` of the block (40_word_codec.md R111). -/
theorem exists_exec_decode_true {v : List Word} (hv : o.data.block n = v) :
    ∃ t, exec (.decode true) (s.accept (encode (.decode true))) = .next t ∧
      match wcDecode v true with
      | .ok m => t.err = .ok ∧ t.len = BitVec.ofNat 32 m.length ∧ t.data.bytes m.length = m
      | .error c => c = .malformedLength ∧ t.err = c ∧ t.len = 0 := by
  obtain ⟨rfl, rfl⟩ := hs
  subst hn hv
  obtain ⟨-, hdecode⟩ := decodeComputesWcDecode true (s.accept (encode (.decode true))) (by simp)
  have hresult := hdecode hfit
  simp only [State.operands_accept, State.accept_data] at hresult
  cases hout : wcDecode (s.liveOperands.data.block s.liveOperands.wcount.toNat) true with
  | ok m =>
    obtain ⟨hexec, hbytes⟩ := hout ▸ hresult
    exact ⟨_, hexec, rfl, rfl, hbytes⟩
  | error c =>
    obtain ⟨rfl, t, hexec, hfields, -⟩ := hout ▸ hresult
    exact ⟨t, hexec, rfl, (congrArg State.err hfields :), (congrArg State.len hfields :)⟩

variable (hpos : n ≠ 0) {m : Word} (hm : o.data.word (n - 1) = m)
include hpos hm

theorem exists_exec_decode_true_of_valid (hvalid : lengthValid n m.toNat = true) :
    ∃ t, exec (.decode true) (s.accept (encode (.decode true))) = .next t ∧ t.err = .ok ∧
      t.Holds p { o with len := m } := by
  obtain ⟨rfl, rfl⟩ := hs
  subst hn hm
  exact ⟨_, exec_decode_true_of_valid hpos hfit hvalid, rfl, rfl, rfl⟩

theorem exists_exec_decode_true_of_invalid (hinvalid : lengthValid n m.toNat = false) :
    ∃ t, exec (.decode true) (s.accept (encode (.decode true))) = .next t ∧ t.err = .malformedLength ∧
      t.Holds p { o with data := o.data.writeAll (scrubCells n), wcount := 0, len := 0 } := by
  obtain ⟨rfl, rfl⟩ := hs
  subst hn hm
  exact ⟨_, exec_decode_true_of_invalid hpos hfit hinvalid, rfl, rfl, rfl⟩

end Block

end Registers

end State.Holds

/-! ### The buffer after both ways -/

/-- Bytes written below the end of a block are lost when the block is written over them. -/
theorem Data.byte_writeAll_blockCells_of_lt (d : Data) {cs : List Host.Cell} {vs : List Word}
    (h : ∀ c ∈ cs, c.1 < 4 * vs.length) (a : Nat) :
    ((d.writeAll cs).writeAll (blockCells 0 vs)).byte a = (d.writeAll (blockCells 0 vs)).byte a := by
  rw [Data.byte_writeAll_blockCells, Data.byte_writeAll_blockCells]
  split
  case isTrue => rfl
  case isFalse hout =>
    refine d.byte_writeAll_of_notMem cs fun c hc hca => ?_
    have hlt := h c hc
    omega

/-- A word of a block just written at the start. -/
theorem Data.word_writeAll_blockCells_zero (d : Data) {v : List Word} {j : Nat} (hj : j < v.length) :
    (d.writeAll (blockCells 0 v)).word j = wordAt v j := by
  rw [Data.word_writeAll_blockCells, if_pos ⟨Nat.zero_le j, by omega⟩]
  rfl

theorem encodedCells_true_lt {l : Nat} : ∀ c ∈ encodedCells l true, c.1 < 4 * (ceil4 l + 1) := by
  intro c hc
  rcases encodedCells_cases hc with hpad | ⟨-, -, hlt⟩
  · exact padCells_lt (Nat.le_succ _) c hpad
  · omega

/-- R177 for ENCRYPT: the block mixed is the one ENCODE.L leaves, and the bytes below it are written over. -/
theorem exists_encrypt_decomposition {s : State} (hp : s.params.wf = true) (hlen : s.len ≠ 0) (hkey : s.keyLen ≠ 0)
    (hfit : ceil4 s.len.toNat + 1 ≤ s.params.wmax) :
    ∃ a k e f d, exec .encrypt (s.accept (encode .encrypt)) = .next a ∧
      exec .keynorm (s.accept (encode .keynorm)) = .next k ∧
      exec (.encode true) (k.accept (encode (.encode true))) = .next e ∧
      exec .mixf (e.accept (encode .mixf)) = .next f ∧
      exec (.decode false) (f.accept (encode (.decode false))) = .next d ∧
      a.err = .ok ∧ d.err = .ok ∧ a.nkey = d.nkey ∧ a.wcount = d.wcount ∧ a.len = d.len ∧
      ∀ i, a.data.byte i = d.data.byte i := by
  have hlen0 : s.len.toNat ≠ 0 := BitVec.toNat_ne.1 hlen
  have hwords := one_le_ceil4 hlen0
  have hcount : encodedCount s.len.toNat true = ceil4 s.len.toNat + 1 := encodedCount_of_ne_zero hlen0 true
  obtain ⟨htoNat, -⟩ := Params.toNat_ofNat_of_le hp hfit
  have hblock : xxteaFwd (normalizedKey s.liveOperands)
      ((s.data.writeAll (encodedCells s.len.toNat true)).block (ceil4 s.len.toNat + 1)) =
        encryptedBlock s.liveOperands := by
    rw [encodedCells_true hlen0]
    rfl
  have hbelow : ∀ c ∈ encodedCells s.len.toNat true, c.1 < 4 * (encryptedBlock s.liveOperands).length := by
    rw [length_encryptedBlock]
    exact encodedCells_true_lt
  have hself := State.Holds.self s
  obtain ⟨a, ha, haerr, haregs⟩ := hself.exists_exec_encrypt hlen0 hkey rfl hfit
  obtain ⟨k, hk, -, hkregs⟩ := hself.exists_exec_keynorm hkey
  obtain ⟨e, he, -, heregs⟩ := hkregs.exists_exec_encode (wl := true) hcount hfit
  obtain ⟨f, hf, -, hfregs⟩ := heregs.exists_exec_mix (i := .mixf) htoNat hfit (fun _ _ => rfl) (by omega) hblock
  obtain ⟨d, hd, hderr, hdregs⟩ := hfregs.exists_exec_decode_false htoNat hfit
  exact ⟨a, k, e, f, d, ha, hk, he, hf, hd, haerr, hderr, haregs.agree hdregs ⟨rfl, rfl, rfl⟩ fun i =>
    (s.data.byte_writeAll_blockCells_of_lt hbelow i).symm⟩

/-- R177 for DECRYPT: the block and the length word checked are the same, and the scrub covers the block. -/
theorem exists_decrypt_decomposition {s : State} (hp : s.params.wf = true) (hkey : s.keyLen ≠ 0)
    (halign : s.len.toNat % 4 = 0) (hlen : 8 ≤ s.len.toNat) (hfit : s.len.toNat / 4 ≤ s.params.wmax) :
    ∃ a k r d, exec .decrypt (s.accept (encode .decrypt)) = .next a ∧
      exec .keynorm (s.accept (encode .keynorm)) = .next k ∧
      exec .mixr ((k.writeLoc .wcount (BitVec.ofNat 32 (s.len.toNat / 4))).accept (encode .mixr)) = .next r ∧
      exec (.decode true) (r.accept (encode (.decode true))) = .next d ∧
      a.err = d.err ∧ a.nkey = d.nkey ∧ a.wcount = d.wcount ∧ a.len = d.len ∧
      ∀ i, a.data.byte i = d.data.byte i := by
  have htwo : 2 ≤ s.len.toNat / 4 := by omega
  obtain ⟨htoNat, -⟩ := Params.toNat_ofNat_of_le hp hfit
  have hself := State.Holds.self s
  obtain ⟨k, hk, -, hkregs⟩ := hself.exists_exec_keynorm hkey
  obtain ⟨r, hr, -, hrregs⟩ := (hkregs.writeLoc_wcount (BitVec.ofNat 32 (s.len.toNat / 4))).exists_exec_mix
    (i := .mixr) htoNat hfit (fun _ _ => rfl) htwo (v := decryptedBlock s.liveOperands) rfl
  have hvlen : (decryptedBlock s.liveOperands).length = s.len.toNat / 4 := length_decryptedBlock _
  have hlength := s.data.word_writeAll_blockCells_zero (v := decryptedBlock s.liveOperands)
    (j := s.len.toNat / 4 - 1) (by omega)
  cases hvalid : lengthValid (s.len.toNat / 4) (decryptedLength s.liveOperands).toNat with
  | true =>
    obtain ⟨a, ha, haerr, haregs⟩ := hself.exists_exec_decrypt_of_valid hkey halign rfl hfit htwo hvalid
    obtain ⟨d, hd, hderr, hdregs⟩ := hrregs.exists_exec_decode_true_of_valid htoNat hfit (by omega) hlength hvalid
    exact ⟨a, k, r, d, ha, hk, hr, hd, haerr.trans hderr.symm, haregs.agree hdregs ⟨rfl, rfl, rfl⟩ fun _ => rfl⟩
  | false =>
    have hbelow : ∀ c ∈ blockCells 0 (decryptedBlock s.liveOperands),
        c.1 < 4 * (List.replicate (s.len.toNat / 4) (0 : Word)).length :=
      blockCells_lt (by rw [hvlen, List.length_replicate])
    obtain ⟨a, ha, haerr, haregs⟩ := hself.exists_exec_decrypt_of_invalid hkey halign rfl hfit htwo hvalid
    obtain ⟨d, hd, hderr, hdregs⟩ := hrregs.exists_exec_decode_true_of_invalid htoNat hfit (by omega) hlength hvalid
    exact ⟨a, k, r, d, ha, hk, hr, hd, haerr.trans hderr.symm, haregs.agree hdregs ⟨rfl, rfl, rfl⟩ fun i =>
      (s.data.byte_writeAll_blockCells_of_lt hbelow i).symm⟩

/-- Settles O34: the two halves. -/
theorem cipherCommandsDecompose : Obligations.CipherCommandsDecompose := by
  unfold Obligations.CipherCommandsDecompose
  exact ⟨fun _ hp _ => exists_encrypt_decomposition hp, fun _ hp _ => exists_decrypt_decomposition hp⟩

/-! ### The reference decryption of an unaligned ciphertext -/

/-- Settles O35: ENCODE pads the ciphertext as `wc_encode` does, and DECODE.L makes the checks of `wc_decode`. -/
theorem referencePathForUnalignedCiphertext : Obligations.ReferencePathForUnalignedCiphertext := by
  unfold Obligations.ReferencePathForUnalignedCiphertext
  intro s key hp _ hpresents hkey hmod hfit
  have hkeyLen : s.keyLen ≠ 0 := mt (Operands.keyLen_eq_zero_iff hpresents).1 hkey
  have hcount : encodedCount s.len.toNat false = ceil4 s.len.toNat := encodedCount_of_ne_zero (by omega) false
  obtain ⟨htoNat, -⟩ := Params.toNat_ofNat_of_le hp hfit
  obtain ⟨k, hk, -, hkregs⟩ := (State.Holds.self s).exists_exec_keynorm hkeyLen
  obtain ⟨e, he, -, heregs⟩ := hkregs.exists_exec_encode (wl := false) hcount hfit
  rcases Nat.lt_or_ge (ceil4 s.len.toNat) 2 with hshort | htwo
  · obtain ⟨r, hr, hrerr⟩ := heregs.exists_exec_mix_of_lt_two (i := .mixr) htoNat hfit (fun _ _ => rfl) hshort
    exact ⟨k, e, r, hk, he, hr, fun _ => hrerr, fun htwo => absurd hshort (Nat.not_lt.2 htwo)⟩
  · have hpadded : xxteaRev (normalizedKey s.liveOperands)
        ((s.data.writeAll (encodedCells s.len.toNat false)).block (ceil4 s.len.toNat)) =
          xxteaRev (ksNormalize key) (wcEncode (s.data.bytes s.len.toNat) false) := by
      rw [← hcount, Data.block_writeAll_encodedCells, normalizedKey_of_presentsKey hpresents]
    obtain ⟨r, hr, hrerr, hrregs⟩ := heregs.exists_exec_mix (i := .mixr) htoNat hfit (fun _ _ => rfl) htwo hpadded
    refine ⟨k, e, r, hk, he, hr, fun hshort => absurd hshort (Nat.not_lt.2 htwo), fun _ => ⟨hrerr, ?_⟩⟩
    generalize hv : xxteaRev (ksNormalize key) (wcEncode (s.data.bytes s.len.toNat) false) = v at hrregs ⊢
    have hvlen : v.length = ceil4 s.len.toNat := by
      rw [← hv, length_xxteaRev, wcEncode_false, length_packWords, Data.length_bytes]
    obtain ⟨hblock, -⟩ := (s.data.writeAll (encodedCells s.len.toNat false)).writeAll_blockCells_zero hvlen
    exact hrregs.exists_exec_decode_true htoNat hfit hblock

end Sys2Proof.Machine
end

