-- ==== Sys2Proof/Proofs/ErrorCompletion.lean ====
section
/-! PROOF. What a command reports and what an error leaves (60_exceptions.md R182, R187). A rule's result is a success,
an error found before any write, or the scrub of MALFORMED_LENGTH; its code is the first check of R187 that applies. -/

namespace Sys2Proof.Machine

/-! ### The kinds of results -/

/-- A result of a rule whose scrub is of `n` words and leaves the NKEY write `k`. -/
inductive Result.Kind (n : Nat) (k : Option Key4) : Result → Prop where
  /-- `complete(OK)`. -/
  | success {r : Result} (hcode : r.code = .ok) : Kind n k r
  /-- An error found before any write (R182). -/
  | raised {c : ResultCode} (hc : c ≠ .malformedLength) : Kind n k (Result.raise c)
  /-- MALFORMED_LENGTH with the scrub (40_word_codec.md R108). -/
  | scrubbed : Kind n k (malformedLength n k)

theorem keynormRule_kind (n : Nat) (k : Option Key4) (o : Operands) : (keynormRule o).Kind n k := by
  unfold keynormRule
  split
  · exact .raised (by simp)
  · exact .success rfl

theorem mixRule_kind (n : Nat) (k : Option Key4) (transform : Key4 → List Word → List Word) (wmax : Nat)
    (o : Operands) : (mixRule transform wmax o).Kind n k := by
  unfold mixRule
  dsimp only
  split_ifs
  · exact .raised (by simp)
  · exact .raised (by simp)
  · exact .success rfl

theorem encodeRule_kind (n : Nat) (k : Option Key4) (wmax : Nat) (wl : Bool) (o : Operands) :
    (encodeRule wmax wl o).Kind n k := by
  unfold encodeRule
  dsimp only
  generalize (if o.len.toNat = 0 then 0 else ceil4 o.len.toNat + wl.toNat) = count
  split
  · exact .raised (by simp)
  · exact .success rfl

/-- DECODE scrubs the words WCOUNT counts. -/
theorem decodeRule_kind (wmax : Nat) (wl : Bool) (o : Operands) :
    (decodeRule wmax wl o).Kind o.wcount.toNat none := by
  unfold decodeRule
  dsimp only
  split_ifs
  · exact .raised (by simp)
  iterate 3 exact .success rfl
  · exact .scrubbed

theorem encryptRule_kind (n : Nat) (k : Option Key4) (wmax : Nat) (o : Operands) : (encryptRule wmax o).Kind n k := by
  unfold encryptRule
  dsimp only
  split_ifs
  · exact .success rfl
  · exact .raised (by simp)
  · exact .raised (by simp)
  · exact .success rfl

/-- DECRYPT scrubs the words of the ciphertext, and its NKEY write stands (43_cipher.md R172). -/
theorem decryptRule_kind (wmax : Nat) (o : Operands) :
    (decryptRule wmax o).Kind (o.len.toNat / 4) (some (normalizedKey o)) := by
  unfold decryptRule
  dsimp only
  split_ifs
  · exact .success rfl
  -- The four checks before the NKEY write.
  iterate 4 exact .raised (by simp)
  · exact .success rfl
  · exact .scrubbed

/-- The kinds of a command's result: DECRYPT and DECODE are the ones that can scrub. -/
theorem ruleOf_kind (i : Instr) (wmax : Nat) (o : Operands) :
    (ruleOf i wmax o).Kind (if i = .decrypt then o.len.toNat / 4 else o.wcount.toNat)
      (if i = .decrypt then some (normalizedKey o) else none) := by
  cases i with
  | nop => exact .success rfl
  | encrypt => exact encryptRule_kind _ _ wmax o
  | decrypt => exact decryptRule_kind wmax o
  | keynorm => exact keynormRule_kind _ _ o
  | encode wl => exact encodeRule_kind _ _ wmax wl o
  | decode wl => exact decodeRule_kind wmax wl o
  | mixf | mixr => exact mixRule_kind _ _ _ wmax o

/-- The completion of MALFORMED_LENGTH (R182, 40_word_codec.md R108). -/
theorem State.complete_malformedLength (s : State) (n : Nat) (k : Option Key4) :
    s.complete (malformedLength n k) =
      { s.finished .malformedLength with
          nkey := k.getD s.nkey, data := s.data.writeAll (scrubCells n), wcount := 0, len := 0 } := rfl

/-- Settles O7: by the kind of the command's result. -/
theorem errorsWriteOnlyStatus : Obligations.ErrorsWriteOnlyStatus := by
  unfold Obligations.ErrorsWriteOnlyStatus
  intro i s t hexec
  obtain rfl := exec_eq_next_iff.1 hexec
  dsimp only
  have hkind := ruleOf_kind i s.params.wmax s.operands
  generalize ruleOf i s.params.wmax s.operands = r at hkind
  cases hkind with
  | success hcode => exact ⟨fun herr => absurd hcode herr, fun herr => by simp [hcode] at herr⟩
  | raised hc => exact ⟨fun _ _ => s.complete_raise _, fun herr => absurd herr hc⟩
  | scrubbed =>
    refine ⟨fun _ herr => absurd rfl herr, fun _ => ⟨?_, s.data.byte_writeAll_scrubCells _⟩⟩
    rw [s.complete_malformedLength]
    split <;> rfl

/-! ### The code of each command -/

/-- Where `wc_decode` of a nonempty block fails is the engine's own length check (40_word_codec.md R107, R111). -/
theorem wcDecode_true_cases {v : List Word} {n : Nat} (hlen : v.length = n) (hn : n ≠ 0) :
    (lengthValid n (wordAt v (n - 1)).toNat = true ∧ ∃ b, wcDecode v true = .ok b) ∨
    (lengthValid n (wordAt v (n - 1)).toNat = false ∧ wcDecode v true = .error .malformedLength) := by
  subst hlen
  rw [wcDecode_true (List.length_pos_iff.1 (Nat.pos_of_ne_zero hn))]
  cases hvalid : lengthValid v.length (wordAt v (v.length - 1)).toNat with
  | true => exact .inl ⟨rfl, _, if_pos rfl⟩
  | false => exact .inr ⟨rfl, if_neg Bool.false_ne_true⟩

theorem code_keynormRule (wmax : Nat) (o : Operands) : (keynormRule o).code = expectedCode .keynorm wmax o := by
  simp only [keynormRule, expectedCode, apply_ite Result.code, Result.raise]

theorem code_mixRule (transform : Key4 → List Word → List Word) (wmax : Nat) (o : Operands) :
    (mixRule transform wmax o).code = expectedCode .mixf wmax o := by
  simp only [mixRule, expectedCode, apply_ite Result.code, Result.raise]

theorem code_encodeRule (wmax : Nat) (wl : Bool) (o : Operands) :
    (encodeRule wmax wl o).code = expectedCode (.encode wl) wmax o := by
  simp only [encodeRule, expectedCode, apply_ite Result.code, Result.raise]

theorem code_encryptRule (wmax : Nat) (o : Operands) : (encryptRule wmax o).code = expectedCode .encrypt wmax o := by
  simp only [encryptRule, expectedCode, apply_ite Result.code, Result.raise, emptyResult]

/-- Past CAPACITY, DECODE fails where `wc_decode` does. -/
theorem code_decodeRule (wmax : Nat) (wl : Bool) (o : Operands) :
    (decodeRule wmax wl o).code = expectedCode (.decode wl) wmax o := by
  simp only [decodeRule, expectedCode, apply_ite Result.code, Result.raise]
  refine if_congr Iff.rfl rfl ?_
  by_cases hn : o.wcount.toNat = 0
  · rw [if_pos hn, hn]
    rfl
  rw [if_neg hn]
  cases wl with
  | false =>
    rw [wcDecode_false]
    rfl
  | true =>
    have hlast := o.data.wordAt_block (n := o.wcount.toNat) (j := o.wcount.toNat - 1) (by omega)
    have hcheck := wcDecode_true_cases (o.data.length_block o.wcount.toNat) hn
    rw [hlast] at hcheck
    rcases hcheck with ⟨hvalid, b, hdecode⟩ | ⟨hinvalid, hdecode⟩
    · rw [hdecode, hvalid]
      rfl
    · rw [hdecode, hinvalid]
      rfl

/-- Past its other checks, DECRYPT fails where `wc_decode` of its block does. -/
theorem code_decryptRule (wmax : Nat) (o : Operands) : (decryptRule wmax o).code = expectedCode .decrypt wmax o := by
  simp only [decryptRule, expectedCode, apply_ite Result.code, Result.raise, emptyResult]
  refine if_congr Iff.rfl rfl <| if_congr Iff.rfl rfl <| if_congr Iff.rfl rfl <| if_congr Iff.rfl rfl ?_
  by_cases hshort : o.len.toNat / 4 < 2
  · rw [if_pos hshort, if_pos hshort]
  rw [if_neg hshort, if_neg hshort]
  have hcheck := wcDecode_true_cases (length_decryptedBlock o) (by omega)
  rw [decryptedBlock] at hcheck
  rcases hcheck with ⟨hvalid, b, hdecode⟩ | ⟨hinvalid, hdecode⟩
  · rw [hdecode, hvalid]
    rfl
  · rw [hdecode, hinvalid]
    rfl

/-- Every command reports the code R187 expects of it. -/
theorem code_ruleOf (i : Instr) (wmax : Nat) (o : Operands) : (ruleOf i wmax o).code = expectedCode i wmax o := by
  cases i with
  | nop => rfl
  | encrypt => exact code_encryptRule wmax o
  | decrypt => exact code_decryptRule wmax o
  | keynorm => exact code_keynormRule wmax o
  | encode wl => exact code_encodeRule wmax wl o
  | decode wl => exact code_decodeRule wmax wl o
  | mixf | mixr => exact code_mixRule _ wmax o

/-- Settles O8: the completion reports the code of the rule; an illegal word decodes to no rule. -/
theorem errorCodesFollowTheCheckOrder : Obligations.ErrorCodesFollowTheCheckOrder := by
  unfold Obligations.ErrorCodesFollowTheCheckOrder
  exact ⟨fun i s => ⟨_, exec_eq_complete i s, code_ruleOf i _ _⟩, fun _ s => execWord_of_not_legalWord s⟩

end Sys2Proof.Machine
end

