-- ==== Sys2Proof/Proofs/CommandLife.lean ====
section
/-! PROOF. The life of a command: acceptance (60_exceptions.md R184), its completion step (R185), the interrupt it
raises (R189, R190), and that no turn of any agent stops the machine. -/

namespace Sys2Proof.Machine

/-! ### The interrupt output -/

/-- A completion raises DONE, so `irq` is IE (R189). -/
@[simp] theorem State.irq_complete (s : State) (r : Result) : (s.complete r).irq = s.ie := Bool.and_true s.ie

/-- Acceptance lowers DONE (R184). -/
@[simp] theorem State.irq_accept (s : State) (c : Word) : (s.accept c).irq = false := Bool.and_false s.ie

/-- The host's acknowledge lowers DONE (R190). -/
theorem State.irq_writeStatus (s : State) {v : Word} (hv : v.getLsbD 1 = true) : (s.writeStatus v).irq = false := by
  rw [State.irq, State.writeStatus_done, hv, Bool.not_true, Bool.and_false, Bool.and_false]

/-- With IE 0 the output is masked (R190). -/
theorem State.irq_writeIrqEn (s : State) {v : Word} (hv : v.getLsbD 0 = false) : (s.writeIrqEn v).irq = false := by
  rw [State.irq, State.writeIrqEn_ie, hv, Bool.false_and]

/-- Every latched word, legal or not, ends in a completion. -/
theorem exists_execWord_eq_complete (c : Word) (s : State) : ∃ r, execWord c s = .next (s.complete r) := by
  rcases execWord_eq c s with ⟨i, -, h⟩ | ⟨e, -, h⟩ <;> exact ⟨_, h⟩

/-- Settles O47: the output after each of the updates it names. -/
theorem interruptFollowsCompletion : Obligations.InterruptFollowsCompletion := by
  unfold Obligations.InterruptFollowsCompletion
  refine ⟨fun i s => ⟨_, exec_eq_complete i s, rfl, s.irq_complete _⟩, fun c s _ => ?_,
    fun s _ => s.irq_writeStatus, fun s _ hv => ⟨s.irq_writeIrqEn hv, rfl⟩, State.irq_accept⟩
  obtain ⟨r, hr⟩ := exists_execWord_eq_complete c s
  exact ⟨_, hr, rfl, s.irq_complete r⟩

/-! ### Acceptance -/

/-- Settles O46: on an idle engine the write takes effect, and what it does is `State.accept`. -/
theorem acceptanceLatchesTheSnapshot : Obligations.AcceptanceLatchesTheSnapshot := by
  unfold Obligations.AcceptanceLatchesTheSnapshot
  intro s c hp hidle
  exact ⟨s.accept c, _, s.memWrite_addrOf_okay .cmd c hp (.inl rfl) (.inl hidle), s.accept_latch c, rfl, rfl,
    s.busy_accept c, s.irq_accept c, rfl⟩

/-! ### The step -/

/-- Settles O52: the sequencer's turn runs the latched word, which is that command. -/
theorem stepRunsTheLatchedCommand : Obligations.StepRunsTheLatchedCommand := by
  unfold Obligations.StepRunsTheLatchedCommand
  intro s l i hturn hlatch hdecode
  rw [step, hturn, takeTurn, State.completeStep, State.popTurn_latch, hlatch]
  dsimp only
  rw [execWord, hdecode]

theorem State.exists_completeStep (s : State) : ∃ t, s.completeStep = .next t := by
  unfold State.completeStep
  split
  case h_1 l hl =>
    obtain ⟨r, hr⟩ := exists_execWord_eq_complete l.word s
    exact ⟨_, hr⟩
  case h_2 => exact ⟨s, rfl⟩

theorem exists_takeTurn (turn : Turn) (s : State) : ∃ t, takeTurn turn s = .next t := by
  cases turn with
  | host => exact ⟨s.hostStep, rfl⟩
  | work => exact ⟨s.work, rfl⟩
  | complete => exact s.exists_completeStep
  | reset => exact ⟨s.resetEngine, rfl⟩

/-- Settles O53: whoever's turn it is. -/
theorem stepAlwaysAnswers : Obligations.StepAlwaysAnswers := by
  unfold Obligations.StepAlwaysAnswers
  intro s
  exact exists_takeTurn s.nextTurn s.popTurn

end Sys2Proof.Machine
end

