-- ==== Sys2Proof/Proofs/Reset.lean ====
section
/-! PROOF. Reset (70_reset_and_hazards.md R210 to R212): the parameters an engine starts with, what its registers hold
and read as, and what each command gives on them. -/

namespace Sys2Proof.Machine

/-! ### The parameters at reset (00_scope.md R7) -/

theorem Config.WMAX_bounds : 2 ≤ Config.WMAX ∧ Config.WMAX ≤ 2 ^ 20 := by
  unfold Config.WMAX
  omega

/-- The region is larger than 0x1000 bytes, so its size rounded up to a power of two is a multiple of that. -/
theorem dvd_regionAlign {wmax : Nat} (hpos : 0 < wmax) : 0x1000 ∣ regionAlign wmax := by
  have hsize : 2 ^ 12 ≤ regionSize wmax - 1 := by
    unfold regionSize
    omega
  have hlog : 12 ≤ Nat.log2 (regionSize wmax - 1) := (Nat.le_log2 (by omega)).2 hsize
  exact Nat.pow_dvd_pow 2 (by omega : 12 ≤ Nat.log2 (regionSize wmax - 1) + 1)

/-- BASE is a multiple of the rounded region size, and so of 0x1000. -/
theorem Config.params_wf : Config.params.wf = true := by
  obtain ⟨hmin, hmax⟩ := Config.WMAX_bounds
  have halign : regionAlign Config.WMAX ∣ Config.BASE := Nat.dvd_mul_left _ _
  have hpage : 0x1000 ∣ Config.BASE := (dvd_regionAlign (by omega)).trans halign
  simp only [Params.wf, Bool.and_eq_true, decide_eq_true_eq, beq_iff_eq]
  exact ⟨⟨⟨hmin, hmax⟩, Nat.mod_eq_zero_of_dvd hpage⟩, Nat.mod_eq_zero_of_dvd halign⟩

/-- Settles O50: the reset engine is idle and its buffer unwritten, so the parameters are all there is to check. -/
theorem invariantAtReset : Obligations.InvariantAtReset := by
  unfold Obligations.InvariantAtReset
  exact State.inv_of_latch_none rfl Config.params_wf (Data.wf_empty _ _)

/-! ### The reset step -/

/-- An unwritten byte holds its draw (10_state.md R43). -/
@[simp] theorem Data.byte_unwritten (epoch i : Nat) :
    ({ cells := [], epoch := epoch } : Data).byte i = Config.resetByte epoch i := rfl

/-- Settles O48: a reset turn is `State.resetEngine`, field by field. -/
theorem resetStep : Obligations.ResetStep := by
  unfold Obligations.ResetStep
  intro s hturn
  have hstep : step s = .next s.popTurn.resetEngine := by rw [step, hturn, takeTurn]
  exact ⟨_, hstep, by simp [State.irq]⟩

/-! ### The state after reset -/

/-- The reset column of 10_state.md R23 lists registers, each with the value the reset state holds there. -/
theorem resetReads_spec {r : Loc × Word} (hr : r ∈ resetReads) :
    r.1.nameable State.reset.params.wmax = true ∧ State.reset.readLoc r.1 = r.2 := by
  have hlist : resetReads = (resetReads.map Prod.fst).map fun t => (t, State.reset.readLoc t) := rfl
  have hnames : (resetReads.map Prod.fst).all (Loc.nameable State.reset.params.wmax) = true := rfl
  rw [hlist] at hr
  obtain ⟨t, ht, rfl⟩ := List.mem_map.1 hr
  exact ⟨List.all_eq_true.1 hnames t ht, rfl⟩

/-- An idle engine reads exactly. -/
theorem memRead_reset {t : Loc} (ht : t.nameable State.reset.params.wmax = true) :
    State.reset.memRead (State.reset.addrOf t) = (.value (State.reset.readLoc t), State.reset) :=
  State.reset.memRead_addrOf_exact t Config.params_wf (.inl ht) (.inl rfl)

/-- Settles O49: the reads are exact, the registers hold what they read as, and a command accepted then works on a
snapshot whose LEN, WCOUNT and KEY_LEN are zero (R212). -/
theorem stateAfterReset : Obligations.StateAfterReset := by
  unfold Obligations.StateAfterReset
  refine ⟨fun r hr => ?_, ⟨rfl, rfl, rfl, rfl, rfl, rfl, rfl, rfl, rfl, rfl⟩, Data.byte_unwritten _, fun w hw => ?_,
    fun i => ?_⟩
  · obtain ⟨hname, hvalue⟩ := resetReads_spec hr
    rw [memRead_reset hname, hvalue]
  · exact memRead_reset (t := .data w) (decide_eq_true hw)
  · obtain ⟨hencode, hdecode⟩ := emptyBuffersStayEmpty
    cases i with
    | nop => exact ⟨_, nopOnlyCompletes _, rfl, rfl, rfl⟩
    | encrypt => exact ⟨_, exec_encrypt_of_len_eq_zero rfl, rfl, rfl, rfl⟩
    | decrypt => exact ⟨_, exec_decrypt_of_len_eq_zero rfl, rfl, rfl, rfl⟩
    | keynorm => exact ⟨_, exec_keynorm_of_keyLen_eq_zero rfl, rfl, rfl, rfl⟩
    | encode wl => exact ⟨_, hencode wl _ rfl, rfl, rfl, rfl⟩
    | decode wl => exact ⟨_, hdecode wl _ rfl, rfl, rfl, rfl⟩
    | mixf | mixr => exact ⟨_, exec_mix_of_lt_two (fun _ _ => rfl) (Nat.zero_le _) Nat.zero_lt_two, rfl, rfl, rfl⟩

end Sys2Proof.Machine
end

