-- ==== Sys2Proof/Proofs/Hazards.lean ====
section
/-! PROOF. What reaches a command in flight (70_reset_and_hazards.md R214, R220, R222): its result is a function of the
latched snapshot, no host step moves the latch or the operand registers, and its completion step comes. -/

namespace Sys2Proof.Machine

/-! ### What a result depends on -/

/-- Settles O36: the result is that of the command's rule, which takes the parameters and the snapshot. -/
theorem resultDependsOnSnapshotOnly : Obligations.ResultDependsOnSnapshotOnly := by
  unfold Obligations.ResultDependsOnSnapshotOnly
  intro i s s' hparams hops
  refine ⟨ruleOf i s.params.wmax s.operands, exec_eq_complete i s, ?_⟩
  rw [hparams, hops]
  exact exec_eq_complete i s'

/-! ### What the ciphertext depends on -/

/-- Two buffers that agree on their first bytes hold the same byte string. -/
theorem Data.bytes_congr {d d' : Data} {n : Nat} (h : ∀ a < n, d.byte a = d'.byte a) : d.bytes n = d'.bytes n :=
  List.map_congr_left fun a ha => h a (List.mem_range.1 ha)

/-- R161: the block ENCRYPT mixes reads the buffer through the plaintext bytes alone. -/
theorem encodedBlock_eq_packWords (o : Operands) :
    encodedBlock o = packWords (o.data.bytes o.len.toNat) ++ [BitVec.ofNat 32 o.len.toNat] :=
  o.data.block_writeAll_padCells_lengthCells o.len.toNat

/-- ENCRYPT's result is the same for two snapshots with the same plaintext and the same key registers (R214). -/
theorem encryptRule_congr {o o' : Operands} (wmax : Nat) (hlen : o.len = o'.len) (hkeyLen : o.keyLen = o'.keyLen)
    (hkey : o.key = o'.key) (hbytes : ∀ a < o.len.toNat, o.data.byte a = o'.data.byte a) :
    encryptRule wmax o = encryptRule wmax o' := by
  have hnorm : normalizedKey o = normalizedKey o' := by rw [normalizedKey, hkeyLen, hkey, ← normalizedKey]
  have hblock : encodedBlock o = encodedBlock o' := by
    rw [encodedBlock_eq_packWords, Data.bytes_congr hbytes, hlen, ← encodedBlock_eq_packWords]
  simp only [encryptRule, hlen, hkeyLen, hnorm, hblock]

/-- The one successful result of ENCRYPT on a nonempty plaintext (R161). -/
theorem encryptRule_of_code_eq_ok {wmax : Nat} {o : Operands} (hok : (encryptRule wmax o).code = .ok)
    (hlen : o.len.toNat ≠ 0) :
    encryptRule wmax o =
      { code := .ok
        nkey := some (normalizedKey o)
        writes := blockCells 0 (encryptedBlock o)
        wcount := some (BitVec.ofNat 32 (ceil4 o.len.toNat + 1))
        len := some (BitVec.ofNat 32 (4 * (ceil4 o.len.toNat + 1))) } := by
  rw [encryptRule] at hok ⊢
  rw [if_neg hlen] at hok ⊢
  split_ifs at hok ⊢
  · cases hok
  · cases hok
  · rfl

/-- The bytes of a block just written at the start are the block's own, whatever the buffer held. -/
theorem Data.bytes_writeAll_blockCells (d : Data) {vs : List Word} {n : Nat} (hn : vs.length = n) :
    (d.writeAll (blockCells 0 vs)).bytes (4 * n) = unpackWords vs := by
  obtain ⟨hblock, -⟩ := d.writeAll_blockCells_zero hn
  rw [← Data.unpackWords_block, hblock]

/-- Settles O37: both engines complete with the same result, and a successful one writes everything compared. -/
theorem ciphertextIgnoresBytesBeyondThePlaintext : Obligations.CiphertextIgnoresBytesBeyondThePlaintext := by
  unfold Obligations.CiphertextIgnoresBytesBeyondThePlaintext
  intro s s' hparams hlen hkeyLen hkey hbytes
  have hexec' : exec .encrypt s' = .next (s'.complete (encryptRule s.params.wmax s.operands)) := by
    rw [encryptRule_congr _ hlen hkeyLen hkey hbytes, hparams]
    exact exec_eq_complete .encrypt s'
  refine ⟨_, _, exec_eq_complete .encrypt s, hexec', rfl, fun hok hne => ?_⟩
  rw [ruleOf, encryptRule_of_code_eq_ok hok (BitVec.toNat_ne.1 hne)]
  have hn := length_encryptedBlock s.operands
  exact ⟨rfl, rfl, rfl,
    (s.data.bytes_writeAll_blockCells hn).trans (s'.data.bytes_writeAll_blockCells hn).symm⟩

/-! ### What the host can move while a command is in flight -/

/-- A write to a location that is not frozen moves at most DONE, WERR and IE. -/
theorem State.writeLoc_of_not_frozen (s : State) {t : Loc} (v : Word) (ht : frozenLoc t = false) :
    ∃ d w i, s.writeLoc t v = { s with done := d, werr := w, ie := i } := by
  cases t with
  | status | irqEn | nkey0 | nkey1 | nkey2 | nkey3 | cap | reserved => exact ⟨_, _, _, rfl⟩
  | cmd | keyLen | key0 | key1 | key2 | key3 | len | wcount | data => simp [frozenLoc] at ht

theorem State.memWrite_of_busy {s : State} (hbusy : s.busy = true) (addr : Nat) (v : Word) :
    ∃ d w i, (s.memWrite addr v).2 = { s with done := d, werr := w, ie := i } := by
  rcases s.memWrite_cases addr v with ⟨-, h⟩ | ⟨-, -, h⟩ | ⟨-, -, -, -, h⟩ | ⟨-, -, hfrozen, h⟩ <;> rw [h]
  · exact ⟨_, _, _, rfl⟩
  · exact ⟨_, _, _, rfl⟩
  · exact ⟨_, _, _, rfl⟩
  · exact s.writeLoc_of_not_frozen v (hfrozen hbusy)

/-- What a host step can do while a command is in flight (R220, 10_state.md R42): of the engine's own fields it moves at
most DONE, WERR and IE. -/
theorem State.hostStep_of_busy {s : State} (hbusy : s.busy = true) :
    ∃ d w i n h tr f, s.hostStep =
      { s with done := d, werr := w, ie := i, draws := n, host := h, trace := tr, scriptFailed := f } := by
  rcases s.hostStep_cases with ⟨addr, v, -, -, h⟩ | ⟨n, h, tr, f, hstep⟩
  · obtain ⟨d, w, i, hwrite⟩ := State.memWrite_of_busy (s := s.popHost) hbusy addr v
    rw [h, hwrite]
    exact ⟨d, w, i, _, _, _, _, rfl⟩
  · exact ⟨s.done, s.werr, s.ie, n, h, tr, f, hstep⟩

/-! ### The completion of a command in flight -/

/-- The completion step of a latched word, legal or not, gives one result in all states with the same parameters and
snapshot. -/
theorem exists_execWord_eq_complete_both (c : Word) {s s' : State} (hparams : s.params = s'.params)
    (hops : s.operands = s'.operands) :
    ∃ r, execWord c s = .next (s.complete r) ∧ execWord c s' = .next (s'.complete r) := by
  unfold execWord
  cases decode c with
  | ok i => exact resultDependsOnSnapshotOnly i s s' hparams hops
  | error e => exact ⟨illegalRule, rfl, rfl⟩

/-- Two states with the same latch and parameters complete with the same result. -/
theorem exists_completeStep_eq_complete_both {s s' : State} (hbusy : s.busy = true) (hlatch : s'.latch = s.latch)
    (hparams : s'.params = s.params) :
    ∃ r, s.completeStep = .next (s.complete r) ∧ s'.completeStep = .next (s'.complete r) := by
  obtain ⟨l, hl⟩ := Option.isSome_iff_exists.1 hbusy
  have hops : s.operands = s'.operands := by simp only [State.operands, hlatch, hl]
  simp only [State.completeStep, hlatch, hl]
  exact exists_execWord_eq_complete_both l.word hparams.symm hops

/-- A result applied to the same operand registers leaves the same. -/
theorem State.liveOperands_complete_congr {s s' : State} (r : Result) (h : s.liveOperands = s'.liveOperands) :
    (s.complete r).liveOperands = (s'.complete r).liveOperands :=
  congrArg (fun o : Operands =>
    { o with
        nkey := r.nkey.getD o.nkey
        data := o.data.writeAll r.writes
        wcount := r.wcount.getD o.wcount
        len := r.len.getD o.len }) h

/-- Settles O57: the host step keeps the latch, the parameters and the operand registers, which fix the completion. -/
theorem hostCannotReachARunningCommand : Obligations.HostCannotReachARunningCommand := by
  unfold Obligations.HostCannotReachARunningCommand
  intro s hbusy
  obtain ⟨d, w, i, n, h, tr, f, hstep⟩ := State.hostStep_of_busy hbusy
  have hlatch : s.hostStep.latch = s.latch := by rw [hstep]
  have hlive : s.hostStep.liveOperands = s.liveOperands := by rw [hstep]; rfl
  obtain ⟨r, hbefore, hafter⟩ := exists_completeStep_eq_complete_both hbusy hlatch (by rw [hstep])
  exact ⟨hlatch, hlive, s.complete r, s.hostStep.complete r, hbefore, hafter,
    State.liveOperands_complete_congr r hlive.symm, rfl, rfl⟩

/-! ### The end of a command in flight -/

/-- With an empty schedule the sequencer moves (R222). -/
theorem State.nextTurn_eq_complete {s : State} (hbusy : s.busy = true) (hturns : s.turns = []) :
    s.nextTurn = .complete := by
  simp [State.nextTurn, hturns, hbusy]

/-- One step of a busy engine ends the command, or is a host or work turn that leaves it in flight. -/
theorem step_of_busy {s t : State} (hbusy : s.busy = true) (hstep : step s = .next t) :
    t.busy = false ∨ (s.nextTurn ≠ .complete ∧ t.busy = true ∧ t.turns = s.turns.tail) := by
  rcases step_cases hstep with ⟨hturn, rfl⟩ | ⟨hturn, rfl⟩ | ⟨-, rfl⟩ | ⟨-, hl, -⟩ | ⟨-, l, i, -, -, rfl⟩ |
    ⟨-, l, e, -, -, rfl⟩
  · obtain ⟨d, w, i, n, h, tr, f, hhost⟩ := State.hostStep_of_busy (s := s.popTurn) hbusy
    rw [hhost]
    exact .inr ⟨by simp [hturn], hbusy, rfl⟩
  · exact .inr ⟨by simp [hturn], by simpa using hbusy, by simp⟩
  · exact .inl rfl
  · simp [State.busy, hl] at hbusy
  · exact .inl rfl
  · exact .inl rfl

/-- Settles O58: by induction on the schedule, each turn of which ends the command or is used up. -/
theorem everyAcceptedCommandEnds : Obligations.EveryAcceptedCommandEnds := by
  unfold Obligations.EveryAcceptedCommandEnds
  intro s hbusy
  obtain ⟨t, hstep⟩ := stepAlwaysAnswers s
  induction hturns : s.turns generalizing s t with
  | nil =>
    have hidle := (step_of_busy hbusy hstep).resolve_right fun h => h.1 (State.nextTurn_eq_complete hbusy hturns)
    exact ⟨1, t, le_rfl, run_succ core hstep 0, hidle⟩
  | cons turn rest ih =>
    rcases step_of_busy hbusy hstep with hidle | ⟨-, hbusy', hrest⟩
    · exact ⟨1, t, by omega, run_succ core hstep 0, hidle⟩
    · obtain ⟨t', hstep'⟩ := stepAlwaysAnswers t
      obtain ⟨n, u, hn, hrun, hidle⟩ := ih t hbusy' t' hstep' (by rw [hrest, hturns, List.tail_cons])
      exact ⟨n + 1, u, Nat.succ_le_succ hn, (run_succ core hstep n).trans hrun, hidle⟩

end Sys2Proof.Machine
end
